-- ==== Sys2Proof/Word.lean ====
section
/-!
DEFINITION. The word types of the engine (spec/00_scope.md R4, R5). All values are unsigned bit
vectors of a fixed width; bit 0 is the least significant bit.
-/

namespace Sys2Proof

/-- A state word, a working register, a schedule word: 32 bits (R4 `WORD`). -/
abbrev Word := BitVec 32

/-- A byte of the message, of `BUF` or of `OUT`: 8 bits (R4). -/
abbrev Byte := BitVec 8

/-- A command token: 10 bits (spec/30_encoding.md R57). -/
abbrev Token := BitVec 10

end Sys2Proof
end

