-- ==== Sys2Proof/Syntax.lean ====
section
/-!
DEFINITION. The command set: one constructor per row of spec/opcode_table.json (spec/30_encoding.md R60, R64).
-/

namespace Sys2Proof

/-- A decoded token. The three commands of R61 to R63, then the 17 rows that partition the reserved
tokens (R60, R64). A reserved row with free bits carries the token's data field `cmd[7:0]`. -/
inductive Instr where
  /-- `INIT`: start a new message (R61, R73). -/
  | init
  /-- `WBYTE d`: append the message byte `d` (R62, R80). -/
  | wbyte (d : Byte)
  /-- `FINALIZE`: pad, compress, write the digest (R63, R110). -/
  | finalize
  /-- Reserved, `op = 0b00`, highest set data bit 7 (R64). -/
  | reservedOp0B7 (data : Byte)
  /-- Reserved, `op = 0b00`, highest set data bit 6 (R64). -/
  | reservedOp0B6 (data : Byte)
  /-- Reserved, `op = 0b00`, highest set data bit 5 (R64). -/
  | reservedOp0B5 (data : Byte)
  /-- Reserved, `op = 0b00`, highest set data bit 4 (R64). -/
  | reservedOp0B4 (data : Byte)
  /-- Reserved, `op = 0b00`, highest set data bit 3 (R64). -/
  | reservedOp0B3 (data : Byte)
  /-- Reserved, `op = 0b00`, highest set data bit 2 (R64). -/
  | reservedOp0B2 (data : Byte)
  /-- Reserved, `op = 0b00`, highest set data bit 1 (R64). -/
  | reservedOp0B1 (data : Byte)
  /-- Reserved, the single token 0x001 (R64). -/
  | reservedOp0B0
  /-- Reserved, `op = 0b10`, highest set data bit 7 (R64). -/
  | reservedOp2B7 (data : Byte)
  /-- Reserved, `op = 0b10`, highest set data bit 6 (R64). -/
  | reservedOp2B6 (data : Byte)
  /-- Reserved, `op = 0b10`, highest set data bit 5 (R64). -/
  | reservedOp2B5 (data : Byte)
  /-- Reserved, `op = 0b10`, highest set data bit 4 (R64). -/
  | reservedOp2B4 (data : Byte)
  /-- Reserved, `op = 0b10`, highest set data bit 3 (R64). -/
  | reservedOp2B3 (data : Byte)
  /-- Reserved, `op = 0b10`, highest set data bit 2 (R64). -/
  | reservedOp2B2 (data : Byte)
  /-- Reserved, `op = 0b10`, highest set data bit 1 (R64). -/
  | reservedOp2B1 (data : Byte)
  /-- Reserved, the single token 0x201 (R64). -/
  | reservedOp2B0
  /-- Reserved, `op = 0b11` with any data (R64). -/
  | reservedOp3 (data : Byte)
  deriving DecidableEq, Repr

end Sys2Proof
end

