-- ==== Sys2Proof/WellFormed.lean ====
section
/-!
DEFINITION. Which terms of `Instr` stand for a token: a reserved row's data field lies in that row's range
(spec/30_encoding.md R60: each row of data whose highest set bit is bit k).
-/

namespace Sys2Proof

/-- Bit `k` is the highest set bit of the data field `d` (R60). -/
def highestBit (k : Nat) (d : Byte) : Bool := d >>> k == 1#8

/-- The term is the decoding of some token (R60, R64). -/
def Instr.wellFormed : Instr → Bool
  | .init => true
  | .wbyte _ => true
  | .finalize => true
  | .reservedOp0B7 data => highestBit 7 data
  | .reservedOp0B6 data => highestBit 6 data
  | .reservedOp0B5 data => highestBit 5 data
  | .reservedOp0B4 data => highestBit 4 data
  | .reservedOp0B3 data => highestBit 3 data
  | .reservedOp0B2 data => highestBit 2 data
  | .reservedOp0B1 data => highestBit 1 data
  | .reservedOp0B0 => true
  | .reservedOp2B7 data => highestBit 7 data
  | .reservedOp2B6 data => highestBit 6 data
  | .reservedOp2B5 data => highestBit 5 data
  | .reservedOp2B4 data => highestBit 4 data
  | .reservedOp2B3 data => highestBit 3 data
  | .reservedOp2B2 data => highestBit 2 data
  | .reservedOp2B1 data => highestBit 1 data
  | .reservedOp2B0 => true
  | .reservedOp3 _ => true

/-- The term stands for a reserved token, one that no command is assigned to (R64). -/
def Instr.isReserved : Instr → Bool
  | .init => false
  | .wbyte _ => false
  | .finalize => false
  | .reservedOp0B7 _ => true
  | .reservedOp0B6 _ => true
  | .reservedOp0B5 _ => true
  | .reservedOp0B4 _ => true
  | .reservedOp0B3 _ => true
  | .reservedOp0B2 _ => true
  | .reservedOp0B1 _ => true
  | .reservedOp0B0 => true
  | .reservedOp2B7 _ => true
  | .reservedOp2B6 _ => true
  | .reservedOp2B5 _ => true
  | .reservedOp2B4 _ => true
  | .reservedOp2B3 _ => true
  | .reservedOp2B2 _ => true
  | .reservedOp2B1 _ => true
  | .reservedOp2B0 => true
  | .reservedOp3 _ => true

end Sys2Proof
end

