-- ==== Sys2Proof/Decode.lean ====
section
/-!
DEFINITION. The decoder, total on every token, the encoder, and the opcode table they follow
(spec/30_encoding.md R57 to R65).
-/

namespace Sys2Proof

/-- Field `op`, bits 9:8 of a token (R57). -/
def opField (c : Token) : BitVec 2 := c.extractLsb' 8 2

/-- Field `data`, bits 7:0 of a token, taken as it stands (R57, R59). -/
def dataField (c : Token) : Byte := c.extractLsb' 0 8

/-- A token made of its two fields (R57). -/
def tokenOf (op : BitVec 2) (data : Byte) : Token := op ++ data

/-- The reserved row of a token with `op = 0b00` and data `d` not 0: the one of its highest set bit (R60). -/
def reservedRow0 (d : Byte) : Instr :=
  if d.getLsbD 7 then .reservedOp0B7 d
  else if d.getLsbD 6 then .reservedOp0B6 d
  else if d.getLsbD 5 then .reservedOp0B5 d
  else if d.getLsbD 4 then .reservedOp0B4 d
  else if d.getLsbD 3 then .reservedOp0B3 d
  else if d.getLsbD 2 then .reservedOp0B2 d
  else if d.getLsbD 1 then .reservedOp0B1 d
  else .reservedOp0B0

/-- The reserved row of a token with `op = 0b10` and data `d` not 0: the one of its highest set bit (R60). -/
def reservedRow2 (d : Byte) : Instr :=
  if d.getLsbD 7 then .reservedOp2B7 d
  else if d.getLsbD 6 then .reservedOp2B6 d
  else if d.getLsbD 5 then .reservedOp2B5 d
  else if d.getLsbD 4 then .reservedOp2B4 d
  else if d.getLsbD 3 then .reservedOp2B3 d
  else if d.getLsbD 2 then .reservedOp2B2 d
  else if d.getLsbD 1 then .reservedOp2B1 d
  else .reservedOp2B0

/-- The decoder of R65, `Reserved` split into the rows of the opcode table. It reads the token alone. -/
def decode (c : Token) : Instr :=
  let op := opField c
  let d := dataField c
  if op = 0b01#2 then .wbyte d
  else if op = 0b00#2 then (if d = 0#8 then .init else reservedRow0 d)
  else if op = 0b10#2 then (if d = 0#8 then .finalize else reservedRow2 d)
  else .reservedOp3 d

/-- The encoder (R61 to R63, R65); a reserved row gives the token of its data field. -/
def encode : Instr → Token
  | .init => 0x000#10
  | .wbyte d => tokenOf 0b01#2 d
  | .finalize => 0x200#10
  | .reservedOp0B7 data => tokenOf 0b00#2 data
  | .reservedOp0B6 data => tokenOf 0b00#2 data
  | .reservedOp0B5 data => tokenOf 0b00#2 data
  | .reservedOp0B4 data => tokenOf 0b00#2 data
  | .reservedOp0B3 data => tokenOf 0b00#2 data
  | .reservedOp0B2 data => tokenOf 0b00#2 data
  | .reservedOp0B1 data => tokenOf 0b00#2 data
  | .reservedOp0B0 => 0x001#10
  | .reservedOp2B7 data => tokenOf 0b10#2 data
  | .reservedOp2B6 data => tokenOf 0b10#2 data
  | .reservedOp2B5 data => tokenOf 0b10#2 data
  | .reservedOp2B4 data => tokenOf 0b10#2 data
  | .reservedOp2B3 data => tokenOf 0b10#2 data
  | .reservedOp2B2 data => tokenOf 0b10#2 data
  | .reservedOp2B1 data => tokenOf 0b10#2 data
  | .reservedOp2B0 => 0x201#10
  | .reservedOp3 data => tokenOf 0b11#2 data

/-- A row of the opcode table: a token `c` selects it when `c &&& mask = pattern` (R60). -/
structure OpcodeRow where
  pattern : Token
  mask : Token
  deriving DecidableEq, Repr

/-- A token selects a row (R60). -/
def rowSelects (r : OpcodeRow) (c : Token) : Bool := c &&& r.mask == r.pattern

/-- The row of an instruction: its `match` and `mask` (R60 and spec/opcode_table.json). -/
def rowOf : Instr → OpcodeRow
  | .init => ⟨0x000, 0x3ff⟩
  | .wbyte _ => ⟨0x100, 0x300⟩
  | .finalize => ⟨0x200, 0x3ff⟩
  | .reservedOp0B7 _ => ⟨0x080, 0x380⟩
  | .reservedOp0B6 _ => ⟨0x040, 0x3c0⟩
  | .reservedOp0B5 _ => ⟨0x020, 0x3e0⟩
  | .reservedOp0B4 _ => ⟨0x010, 0x3f0⟩
  | .reservedOp0B3 _ => ⟨0x008, 0x3f8⟩
  | .reservedOp0B2 _ => ⟨0x004, 0x3fc⟩
  | .reservedOp0B1 _ => ⟨0x002, 0x3fe⟩
  | .reservedOp0B0 => ⟨0x001, 0x3ff⟩
  | .reservedOp2B7 _ => ⟨0x280, 0x380⟩
  | .reservedOp2B6 _ => ⟨0x240, 0x3c0⟩
  | .reservedOp2B5 _ => ⟨0x220, 0x3e0⟩
  | .reservedOp2B4 _ => ⟨0x210, 0x3f0⟩
  | .reservedOp2B3 _ => ⟨0x208, 0x3f8⟩
  | .reservedOp2B2 _ => ⟨0x204, 0x3fc⟩
  | .reservedOp2B1 _ => ⟨0x202, 0x3fe⟩
  | .reservedOp2B0 => ⟨0x201, 0x3ff⟩
  | .reservedOp3 _ => ⟨0x300, 0x300⟩

/-- The 20 rows of the opcode table, in its order (R60). -/
def opcodeTable : List OpcodeRow :=
  [⟨0x000, 0x3ff⟩, ⟨0x100, 0x300⟩, ⟨0x200, 0x3ff⟩, ⟨0x080, 0x380⟩,
   ⟨0x040, 0x3c0⟩, ⟨0x020, 0x3e0⟩, ⟨0x010, 0x3f0⟩, ⟨0x008, 0x3f8⟩,
   ⟨0x004, 0x3fc⟩, ⟨0x002, 0x3fe⟩, ⟨0x001, 0x3ff⟩, ⟨0x280, 0x380⟩,
   ⟨0x240, 0x3c0⟩, ⟨0x220, 0x3e0⟩, ⟨0x210, 0x3f0⟩, ⟨0x208, 0x3f8⟩,
   ⟨0x204, 0x3fc⟩, ⟨0x202, 0x3fe⟩, ⟨0x201, 0x3ff⟩, ⟨0x300, 0x300⟩]

/-- Why a string of bits is no token. -/
inductive DecodeError where
  /-- A bit above bit 9 is set: the `cmd` port has no wire for it (R57). -/
  | widerThanToken
  deriving DecidableEq, Repr

/-- The token carried by the `nbits` low bits of `w`, bit 0 least significant (R57). DESIGN CHOICE
(notes/assumptions/4.md): the spec has tokens of 10 bits only; fewer bits are extended with zeros to a token, more bits
are a token when all above bit 9 are 0, and a value of 1024 or more is refused. -/
def tokenOfBits (nbits w : Nat) : Except DecodeError Token :=
  let v := w % 2 ^ nbits
  if v < 1024 then .ok (BitVec.ofNat 10 v) else .error .widerThanToken

/-- The decoder on any string of bits: every token decodes, fewer bits as the token they extend to with zeros, and
anything wider is rejected by name. DESIGN CHOICE beyond the 10-bit tokens (notes/assumptions/4.md). -/
def decodeBits (nbits w : Nat) : Except DecodeError Instr :=
  match tokenOfBits nbits w with
  | .ok c => .ok (decode c)
  | .error e => .error e

/-- The instruction the decoder reads from bits numbered as spec/opcode_table.json numbers them. -/
def decodeTableWord (nbits w : Nat) : Option Instr :=
  match decodeBits nbits w with
  | .ok i => some i
  | .error _ => none

end Sys2Proof
end

