-- ==== Sys2Proof/Config.lean ====
section
/-!
DEFINITION. The sizes the spec fixes (spec/00_scope.md R4) and the engine's one open parameter, the
source `UNSPEC` of unspecified values (R10, spec/92_eei_decisions.md D10).
-/

namespace Sys2Proof

/-- Size of `BUF` in bytes (R4 `BLOCK`). -/
abbrev Config.blockBytes : Nat := 64

/-- Size of `OUT` in bytes (R4 `DIGEST`). -/
abbrev Config.digestBytes : Nat := 32

/-- Offset of the length field in the last block (R4 `LENPOS`). -/
abbrev Config.lenPos : Nat := 56

/-- The first padding byte (R4 `PADMARK`). -/
abbrev Config.padMark : Byte := 0x80

/-! The draws of `UNSPEC`: one opaque constant per register that a rule assigns `UNSPEC` to. The first
argument is the number of the event at which it is drawn (`State.draws`), so that two occurrences are two
values under no law. No constant has a body: nothing can be proved about a value of it. DESIGN CHOICE: the
form of the draw (notes/assumptions/1.md). -/

/-- Content of `H[i]` after the `n`-th event that leaves it `UNSPEC` (R10, R31, R117). -/
opaque Config.unspecH (n i : Nat) : Word

/-- Content of `BUF[a]` after the `n`-th event that leaves it `UNSPEC` (R10, R15, R31, R117). -/
opaque Config.unspecBuf (n a : Nat) : Byte

/-- Content of `NBUF` after the `n`-th event that leaves it `UNSPEC` (R10, R31, R117); it stays in the
register's range 0..63. -/
opaque Config.unspecNbuf (n : Nat) : Fin 64

/-- Content of `LEN` after the `n`-th event that leaves it `UNSPEC` (R10, R31, R117). -/
opaque Config.unspecLen (n : Nat) : BitVec 64

/-- Content of `OUT[a]` after the `n`-th event that leaves it `UNSPEC` (R10, R18, R31). -/
opaque Config.unspecOut (n a : Nat) : Byte

end Sys2Proof
end

