-- ==== Sys2Proof/Machine/State.lean ====
section
/-!
DEFINITION. The engine's state (spec/10_state.md R13), the form of its two byte memories, the reasons a step
could stop, and the state after the hardware reset (R31, spec/70_reset_and_hazards.md R145).
-/

namespace Sys2Proof.Machine

/-- Eight 32-bit registers, index 0 first: the state words `H[0..7]` (R14). -/
abbrev Words8 := Vector Word 8

/-- `PHASE` (R23). The code 3 is never produced, so the type has three values (spec/93 V2). -/
inductive Phase where
  /-- Code 0: no `INIT` since reset. -/
  | uninit
  /-- Code 1: accepting bytes. -/
  | active
  /-- Code 2: finalized. -/
  | consumed
  deriving DecidableEq, Repr

/-- The three faults the ENGINE records in `CAUSE` and goes on from into the halted state
(spec/60_exceptions.md R126). They are next states of a step, not stops of the model. -/
inductive EngineFault where
  /-- `CAUSE` 1: a reserved token (R127). -/
  | illegalCommand
  /-- `CAUSE` 2: `WBYTE` or `FINALIZE` before the first `INIT` (R128). -/
  | notInitialized
  /-- `CAUSE` 3: `WBYTE` or `FINALIZE` after `FINALIZE` (R129). -/
  | consumed
  deriving DecidableEq, Repr

/-- A byte memory: the bytes a rule has stored since the memory last became `UNSPEC`, as (address, byte)
cells at strictly rising addresses. An address that is not listed holds no stored byte; what a read of it
gives is a free value (`bufByte` and `outByte` in Machine/Ops.lean; notes/assumptions/3.md). -/
abbrev Memory := List Host.Cell

/-- The canonical form of a memory of `size` bytes: strictly rising addresses, all below `size`
(spec/20_memory.md R35 to R37). -/
def Memory.wf (size : Nat) : Memory → Bool
  | [] => true
  | c :: m => decide (c.1 < size) && m.all (fun c' => decide (c.1 < c'.1)) && Memory.wf size m

/-- The complete state of one engine (R13), and the model's own two fields `draws` and `port`. -/
structure State where
  /-- `H[0..7]`, the running digest state (R14). -/
  h : Words8
  /-- `BUF[0..63]`, the block buffer (R15). -/
  buf : Memory
  /-- `NBUF`, bytes in `BUF` and next store position, 0..63 (R16). -/
  nbuf : Fin 64
  /-- `LEN`, the 64-bit byte counter (R17). -/
  len : BitVec 64
  /-- `OUT[0..31]`, the digest output register (R18). -/
  out : Memory
  /-- `STATUS.PHASE` (R23). -/
  phase : Phase
  /-- `STATUS.ERR`, the sticky fault flag: the engine is halted (R25). -/
  err : Bool
  /-- `STATUS.CAUSE`, the first fault since reset; none is code 0 (R25, R126). -/
  cause : Option EngineFault
  /-- MODEL'S OWN: number of the latest event at which registers became `UNSPEC` (notes/assumptions/1.md). -/
  draws : Nat
  /-- MODEL'S OWN: the tokens the host presents on `cmd`, the next one first; empty while `cmd_valid` is 0
  (spec/30_encoding.md R55, R56; notes/assumptions/4.md). -/
  port : List Token
  deriving DecidableEq, Repr

/-- Reasons for which the MODEL would stop with a fault. There is none: every token has an effect in every
state (R26 is total), and a fault of the engine is a next state with `ERR` set (R131). -/
inductive Fault where
  deriving DecidableEq, Repr

/-- Reasons for which the model gives a token no meaning. -/
inductive Refusal where
  /-- Raised by an arm of `exec` for an instruction without a meaning yet; no arm does. Safe. -/
  | notModelled (mnemonic : String)
  deriving DecidableEq, Repr

/-- The free content of `H` after event `n` (R10). -/
def unspecWords (n : Nat) : Words8 :=
  #v[Config.unspecH n 0, Config.unspecH n 1, Config.unspecH n 2, Config.unspecH n 3,
    Config.unspecH n 4, Config.unspecH n 5, Config.unspecH n 6, Config.unspecH n 7]

/-- The reset state (R31, R145) whose `UNSPEC` registers are drawn at event `n`, with `port` still to be
accepted: `STATUS = 0x00`, everything else `UNSPEC`. -/
def State.afterReset (n : Nat) (port : List Token) : State where
  h := unspecWords n
  buf := []
  nbuf := Config.unspecNbuf n
  len := Config.unspecLen n
  out := []
  phase := .uninit
  err := false
  cause := none
  draws := n
  port := port

/-- The machine right after reset, the initial state of every run (R145, R161). DESIGN CHOICE: the registers
the spec leaves `UNSPEC` hold the free values of event 0 (notes/assumptions/2.md). -/
def State.reset : State := State.afterReset 0 []

end Sys2Proof.Machine
end

