-- ==== Sys2Proof/Machine/Operands.lean ====
section
/-!
DEFINITION. The arithmetic primitives (spec/00_scope.md R8), the byte orders (spec/20_memory.md R39 to R42) and
the operands a command works on: the message byte and the bit length (spec/43_finalize.md R111).
-/

namespace Sys2Proof.Machine

/-- `add32`: addition modulo 2^32, carry discarded (R8, R105 a). -/
def add32 (x y : Word) : Word := x + y

/-- `add64`: addition modulo 2^64 (R8, R105 b). -/
def add64 (x y : BitVec 64) : BitVec 64 := x + y

/-- `rotr`: rotation right, `x[n-1:0] ++ x[31:n]` for `0 < n < 32` (R8). -/
def rotr (x : Word) (n : Nat) : Word := x.rotateRight n

/-- `shr`: logical shift right (R8). -/
def shr (x : Word) (n : Nat) : Word := x >>> n

/-- `shl64`: `(x * 2^n) mod 2^64` (R8). -/
def shl64 (x : BitVec 64) (n : Nat) : BitVec 64 := x <<< n

/-- The word of four bytes, first byte most significant (R39, R40). -/
def be32 (b0 b1 b2 b3 : Byte) : Word := b0 ++ b1 ++ b2 ++ b3

/-- The four bytes of a word, most significant first (R39, R42). -/
def bytes32 (x : Word) : List Byte :=
  [x.extractLsb' 24 8, x.extractLsb' 16 8, x.extractLsb' 8 8, x.extractLsb' 0 8]

/-- The eight bytes of a 64-bit value, most significant first (R39, R41). -/
def bytes64 (x : BitVec 64) : List Byte :=
  [x.extractLsb' 56 8, x.extractLsb' 48 8, x.extractLsb' 40 8, x.extractLsb' 32 8,
   x.extractLsb' 24 8, x.extractLsb' 16 8, x.extractLsb' 8 8, x.extractLsb' 0 8]

/-- The length field `B64 = (LEN * 8) mod 2^64` (R111). -/
def bitLength (len : BitVec 64) : BitVec 64 := shl64 len 3

end Sys2Proof.Machine
end

