-- ==== Sys2Proof/Machine/Ops.lean ====
section
/-!
DEFINITION. The named operations over the memories and the registers: reads and writes of `BUF` and `OUT`
(spec/00_scope.md R7, spec/20_memory.md R35 to R46), fault entry (spec/60_exceptions.md R131), the checks before a
command (R130), the registers left `UNSPEC` (R10), and the hardware reset (spec/70_reset_and_hazards.md R145).
-/

namespace Sys2Proof.Machine

/-- The byte a memory lists at an address. -/
def Memory.byte? : Memory → Nat → Option Byte
  | [], _ => none
  | c :: m, a => if a = c.1 then some c.2 else Memory.byte? m a

/-- The cells of bytes at rising addresses from `a` on. -/
def cellsFrom : Nat → List Byte → Memory
  | _, [] => []
  | a, v :: vs => (a, v) :: cellsFrom (a + 1) vs

/-- Store bytes at rising addresses from `a` on: the cells below, the new cells, the cells above. -/
def Memory.writeBytes (m : Memory) (a : Nat) (vs : List Byte) : Memory :=
  m.filter (fun c => decide (c.1 < a)) ++
    (cellsFrom a vs ++ m.filter (fun c => decide (a + vs.length ≤ c.1)))

/-- Store one byte. -/
def Memory.write (m : Memory) (a : Nat) (v : Byte) : Memory := m.writeBytes a [v]

/-- `BUF[a]`: the stored byte, or the free value of a byte that holds `UNSPEC` (R15). -/
def bufByte (s : State) (a : Nat) : Byte := (s.buf.byte? a).getD (Config.unspecBuf s.draws a)

/-- `OUT[a]`: the stored byte, or the free value of a byte that holds `UNSPEC` (R18). -/
def outByte (s : State) (a : Nat) : Byte := (s.out.byte? a).getD (Config.unspecOut s.draws a)

/-- The 64 bytes `BUF[0..63]` as `COMPRESS` takes them (R90). -/
def bufBlock (s : State) : Fin 64 → Byte := fun i => bufByte s i

/-- The 32 bytes `OUT[0..31]`, first byte first (R18). -/
def outBytes (s : State) : List Byte := (List.range 32).map (outByte s)

/-- `MemRead(a, 4)`: four bytes of `BUF`, big-endian (R7, R40). -/
def memRead4 (s : State) (a : Nat) : Word :=
  be32 (bufByte s a) (bufByte s (a + 1)) (bufByte s (a + 2)) (bufByte s (a + 3))

/-- `MemWrite(a, 1, v)` on `BUF` (R7, R36 a). -/
def memWrite1 (s : State) (a : Nat) (v : Byte) : State := { s with buf := s.buf.write a v }

/-- `MemWrite(a, 8, v)` on `BUF`, big-endian (R7, R41). -/
def memWrite8 (s : State) (a : Nat) (v : BitVec 64) : State :=
  { s with buf := s.buf.writeBytes a (bytes64 v) }

/-- `for i in a .. a+n-1: BUF[i] <- 0x00` (R113, R114); `n = 0` is the empty range. -/
def zeroFill (s : State) (a n : Nat) : State :=
  { s with buf := s.buf.writeBytes a (List.replicate n 0x00#8) }

/-- The 32 bytes of eight words, each big-endian, in order (R42, R116). -/
def bytesOfWords (w : Words8) : List Byte :=
  bytes32 w[0] ++ bytes32 w[1] ++ bytes32 w[2] ++ bytes32 w[3] ++
    bytes32 w[4] ++ bytes32 w[5] ++ bytes32 w[6] ++ bytes32 w[7]

/-- Fault entry, `raise X`: `ERR` and `CAUSE` are written and nothing else (R9, R131). -/
def raise (x : EngineFault) (s : State) : State := { s with err := true, cause := some x }

/-- Check 1 of R130: a halted engine ignores the token (R132), else the token has its effect `f`. -/
def unlessHalted (f : State → State) (s : State) : Host.Outcome State Fault Refusal :=
  .next (if s.err then s else f s)

/-- Check 3 of R130: `WBYTE` and `FINALIZE` outside `ACTIVE` raise the fault of the phase
(R26, R89, R118, R128, R129), else the command has its effect `f`. -/
def whenActive (f : State → State) (s : State) : State :=
  match s.phase with
  | .uninit => raise .notInitialized s
  | .active => f s
  | .consumed => raise .consumed s

/-- `H, BUF, NBUF, LEN <- UNSPEC`: a new draw for each (R10, R117). -/
def forget (s : State) : State :=
  { s with
    h := unspecWords (s.draws + 1)
    buf := []
    nbuf := Config.unspecNbuf (s.draws + 1)
    len := Config.unspecLen (s.draws + 1)
    draws := s.draws + 1 }

/-- Asserting `rst` on a running engine: the reset state with new draws; no token is accepted, so the tokens
the host still presents stay (R56, R145, R146). It is not a step: a run starts in a reset state (R145). -/
def assertReset (s : State) : State := State.afterReset (s.draws + 1) s.port

end Sys2Proof.Machine
end

