-- ==== Sys2Proof/Machine/Compress.lean ====
section
/-!
DEFINITION. The internal transform `COMPRESS` (spec/42_compress.md R90 to R109): constants, the six functions,
message schedule, rounds, add-back. The formulas and numbers are the spec's rules, which supplies them from
general knowledge (spec/93_implementation_defined.md Part 2).
-/

namespace Sys2Proof.Machine

/-- The initial hash value `IV[0..7]` (R92). -/
def iv : Words8 :=
  #v[0x6a09e667, 0xbb67ae85, 0x3c6ef372, 0xa54ff53a,
    0x510e527f, 0x9b05688c, 0x1f83d9ab, 0x5be0cd19]

/-- The table of R93, row by row: row `j` holds `K[4j]`, `K[4j+1]`, `K[4j+2]`, `K[4j+3]`. -/
def roundConstantRows : List (List Word) :=
  [[0x428a2f98, 0x71374491, 0xb5c0fbcf, 0xe9b5dba5],
   [0x3956c25b, 0x59f111f1, 0x923f82a4, 0xab1c5ed5],
   [0xd807aa98, 0x12835b01, 0x243185be, 0x550c7dc3],
   [0x72be5d74, 0x80deb1fe, 0x9bdc06a7, 0xc19bf174],
   [0xe49b69c1, 0xefbe4786, 0x0fc19dc6, 0x240ca1cc],
   [0x2de92c6f, 0x4a7484aa, 0x5cb0a9dc, 0x76f988da],
   [0x983e5152, 0xa831c66d, 0xb00327c8, 0xbf597fc7],
   [0xc6e00bf3, 0xd5a79147, 0x06ca6351, 0x14292967],
   [0x27b70a85, 0x2e1b2138, 0x4d2c6dfc, 0x53380d13],
   [0x650a7354, 0x766a0abb, 0x81c2c92e, 0x92722c85],
   [0xa2bfe8a1, 0xa81a664b, 0xc24b8b70, 0xc76c51a3],
   [0xd192e819, 0xd6990624, 0xf40e3585, 0x106aa070],
   [0x19a4c116, 0x1e376c08, 0x2748774c, 0x34b0bcb5],
   [0x391c0cb3, 0x4ed8aa4a, 0x5b9cca4f, 0x682e6ff3],
   [0x748f82ee, 0x78a5636f, 0x84c87814, 0x8cc70208],
   [0x90befffa, 0xa4506ceb, 0xbef9a3f7, 0xc67178f2]]

/-- The round constants `K[0..63]` (R93). -/
def roundConstants : List Word := roundConstantRows.flatten

/-- `Ch` (R94). -/
def ch (x y z : Word) : Word := (x &&& y) ^^^ (~~~x &&& z)

/-- `Maj` (R95). -/
def maj (x y z : Word) : Word := (x &&& y) ^^^ (x &&& z) ^^^ (y &&& z)

/-- `bsig0` (R96). -/
def bsig0 (x : Word) : Word := rotr x 2 ^^^ rotr x 13 ^^^ rotr x 22

/-- `bsig1` (R97). -/
def bsig1 (x : Word) : Word := rotr x 6 ^^^ rotr x 11 ^^^ rotr x 25

/-- `ssig0` (R98). -/
def ssig0 (x : Word) : Word := rotr x 7 ^^^ rotr x 18 ^^^ shr x 3

/-- `ssig1` (R99). -/
def ssig1 (x : Word) : Word := rotr x 17 ^^^ rotr x 19 ^^^ shr x 10

/-- Schedule load: `W[0..15]` are the big-endian words of the block (R100). -/
def scheduleLoad (b : Fin 64 → Byte) : List Word :=
  List.ofFn fun t : Fin 16 =>
    be32 (b ⟨4 * t, by omega⟩) (b ⟨4 * t + 1, by omega⟩) (b ⟨4 * t + 2, by omega⟩) (b ⟨4 * t + 3, by omega⟩)

/-- `W[t]` for `t = w.length >= 16` from `w = W[0..t-1]` (R101). -/
def scheduleNext (w : List Word) : Word :=
  ssig1 (w.getD (w.length - 2) 0) + w.getD (w.length - 7) 0
    + ssig0 (w.getD (w.length - 15) 0) + w.getD (w.length - 16) 0

/-- Append the next `n` schedule words, in increasing `t` (R101). -/
def scheduleExtend : Nat → List Word → List Word
  | 0, w => w
  | n + 1, w => scheduleExtend n (w ++ [scheduleNext w])

/-- The 64-entry message schedule `W[0..63]` of a block (R20, R100, R101). -/
def schedule (b : Fin 64 → Byte) : List Word := scheduleExtend 48 (scheduleLoad b)

/-- The working registers `V[0..7]`, written `a .. h`, of one `COMPRESS`; they are not state (R6, R19). -/
structure Working where
  a : Word
  b : Word
  c : Word
  d : Word
  e : Word
  f : Word
  g : Word
  h : Word
  deriving DecidableEq, Repr

/-- Working-register load (R102). -/
def loadWorking (hin : Words8) : Working :=
  ⟨hin[0], hin[1], hin[2], hin[3], hin[4], hin[5], hin[6], hin[7]⟩

/-- `T1` of a round (R103). -/
def roundT1 (v : Working) (k w : Word) : Word := v.h + bsig1 v.e + ch v.e v.f v.g + k + w

/-- `T2` of a round (R103). -/
def roundT2 (v : Working) : Word := bsig0 v.a + maj v.a v.b v.c

/-- One round on the working registers with `K[t] = k` and `W[t] = w`; all right-hand sides read the registers
from before the round (R103). -/
def compressRound (v : Working) (k w : Word) : Working :=
  ⟨add32 (roundT1 v k w) (roundT2 v), v.a, v.b, v.c, add32 v.d (roundT1 v k w), v.e, v.f, v.g⟩

/-- The working registers after the first `n` rounds, loaded before round 0 (R102, R103). -/
def workingAfter (hin : Words8) (w : List Word) (n : Nat) : Working :=
  ((roundConstants.zip w).take n).foldl (fun v kw => compressRound v kw.1 kw.2) (loadWorking hin)

/-- Add-back (R104). -/
def addBack (hin : Words8) (v : Working) : Words8 :=
  #v[add32 hin[0] v.a, add32 hin[1] v.b, add32 hin[2] v.c, add32 hin[3] v.d,
    add32 hin[4] v.e, add32 hin[5] v.f, add32 hin[6] v.g, add32 hin[7] v.h]

/-- `COMPRESS(Hin, B)`, a pure function (R90, R91). -/
def compress (hin : Words8) (b : Fin 64 → Byte) : Words8 :=
  addBack hin (workingAfter hin (schedule b) 64)

/-- `H <- COMPRESS(H, BUF[0..63])`: it writes `H` only (R90). -/
def compressBuf (s : State) : State := { s with h := compress s.h (bufBlock s) }

end Sys2Proof.Machine
end

