-- ==== Sys2Proof/Machine/Finalize.lean ====
section
/-!
DEFINITION. Command `FINALIZE` with its internal steps `PAD` and `SERIALIZE` (spec/43_finalize.md R110 to R118).
-/

namespace Sys2Proof.Machine

/-- The block whose last 8 bytes will hold the length, marker and zeros in place: the current block if
`NBUF <= 55`, else a second block after the first was compressed (R112 to R114). -/
def padMarked (s : State) : State :=
  let n := s.nbuf.val
  let marked := memWrite1 s n Config.padMark
  if n > 55 then zeroFill (compressBuf (zeroFill marked (n + 1) (63 - n))) 0 56
  else zeroFill marked (n + 1) (55 - n)

/-- `PAD` up to the last block, ready for its `COMPRESS`: the length field is that of `LEN` as the command
found it (R111, R114; spec/90_conflicts.md C9). -/
def padLast (s : State) : State := memWrite8 (padMarked s) Config.lenPos (bitLength s.len)

/-- `SERIALIZE`: `OutWrite(4i, 4, H[i])` for i = 0..7, which is one write of the 32 bytes of `H` at address 0
(R42, R116). -/
def serialize (s : State) : State := { s with out := s.out.writeBytes 0 (bytesOfWords s.h) }

/-- Effect of `FINALIZE` in phase `ACTIVE` (R110, R117). -/
def finishMessage (s : State) : State :=
  forget { serialize (compressBuf (padLast s)) with phase := .consumed }

/-- `FINALIZE` (R110, R118). -/
def execFinalize (s : State) : Host.Outcome State Fault Refusal :=
  unlessHalted (whenActive finishMessage) s

end Sys2Proof.Machine
end

