-- ==== Sys2Proof/Machine/Initialise.lean ====
section
/-!
DEFINITION. Command `INIT` (spec/40_initialize.md R73 to R77).
-/

namespace Sys2Proof.Machine

/-- Effect of `INIT`, in any phase (R73, R74): `BUF`, `OUT`, `ERR`, `CAUSE` are not written (R75 to R77). -/
def startMessage (s : State) : State :=
  { s with h := iv, nbuf := 0, len := 0, phase := .active }

/-- `INIT` (R73). -/
def execInit (s : State) : Host.Outcome State Fault Refusal := unlessHalted startMessage s

end Sys2Proof.Machine
end

