-- ==== Sys2Proof/Machine/Reserved.lean ====
section
/-!
DEFINITION. The reserved tokens (spec/30_encoding.md R64, spec/60_exceptions.md R127): one meaning per row of the
opcode table, all over one shared operation.
-/

namespace Sys2Proof.Machine

/-- A reserved token raises `IllegalCommand` in every phase, unless the engine is halted (R64, R127, R130). -/
def illegalToken (s : State) : Host.Outcome State Fault Refusal :=
  unlessHalted (raise .illegalCommand) s

/-- `RESERVED_OP0_B7` (R64). -/
def execReservedOp0B7 (_data : Byte) (s : State) : Host.Outcome State Fault Refusal := illegalToken s

/-- `RESERVED_OP0_B6` (R64). -/
def execReservedOp0B6 (_data : Byte) (s : State) : Host.Outcome State Fault Refusal := illegalToken s

/-- `RESERVED_OP0_B5` (R64). -/
def execReservedOp0B5 (_data : Byte) (s : State) : Host.Outcome State Fault Refusal := illegalToken s

/-- `RESERVED_OP0_B4` (R64). -/
def execReservedOp0B4 (_data : Byte) (s : State) : Host.Outcome State Fault Refusal := illegalToken s

/-- `RESERVED_OP0_B3` (R64). -/
def execReservedOp0B3 (_data : Byte) (s : State) : Host.Outcome State Fault Refusal := illegalToken s

/-- `RESERVED_OP0_B2` (R64). -/
def execReservedOp0B2 (_data : Byte) (s : State) : Host.Outcome State Fault Refusal := illegalToken s

/-- `RESERVED_OP0_B1` (R64). -/
def execReservedOp0B1 (_data : Byte) (s : State) : Host.Outcome State Fault Refusal := illegalToken s

/-- `RESERVED_OP0_B0` (R64). -/
def execReservedOp0B0 (s : State) : Host.Outcome State Fault Refusal := illegalToken s

/-- `RESERVED_OP2_B7` (R64). -/
def execReservedOp2B7 (_data : Byte) (s : State) : Host.Outcome State Fault Refusal := illegalToken s

/-- `RESERVED_OP2_B6` (R64). -/
def execReservedOp2B6 (_data : Byte) (s : State) : Host.Outcome State Fault Refusal := illegalToken s

/-- `RESERVED_OP2_B5` (R64). -/
def execReservedOp2B5 (_data : Byte) (s : State) : Host.Outcome State Fault Refusal := illegalToken s

/-- `RESERVED_OP2_B4` (R64). -/
def execReservedOp2B4 (_data : Byte) (s : State) : Host.Outcome State Fault Refusal := illegalToken s

/-- `RESERVED_OP2_B3` (R64). -/
def execReservedOp2B3 (_data : Byte) (s : State) : Host.Outcome State Fault Refusal := illegalToken s

/-- `RESERVED_OP2_B2` (R64). -/
def execReservedOp2B2 (_data : Byte) (s : State) : Host.Outcome State Fault Refusal := illegalToken s

/-- `RESERVED_OP2_B1` (R64). -/
def execReservedOp2B1 (_data : Byte) (s : State) : Host.Outcome State Fault Refusal := illegalToken s

/-- `RESERVED_OP2_B0` (R64). -/
def execReservedOp2B0 (s : State) : Host.Outcome State Fault Refusal := illegalToken s

/-- `RESERVED_OP3` (R64). -/
def execReservedOp3 (_data : Byte) (s : State) : Host.Outcome State Fault Refusal := illegalToken s

end Sys2Proof.Machine
end

