-- ==== Sys2Proof/Machine/Write.lean ====
section
/-!
DEFINITION. Command `WBYTE` (spec/41_write.md R80 to R83, R89).
-/

namespace Sys2Proof.Machine

/-- The byte store and the counter of `WBYTE d` (R81, R82). -/
def storeByte (d : Byte) (s : State) : State :=
  { memWrite1 s s.nbuf.val d with len := add64 s.len 1 }

/-- Effect of `WBYTE d` in phase `ACTIVE` (R80): the 64th byte of a block runs `COMPRESS` in the same step (R83). -/
def appendByte (d : Byte) (s : State) : State :=
  if s.nbuf = 63 then { compressBuf (storeByte d s) with nbuf := 0 }
  else { storeByte d s with nbuf := s.nbuf + 1 }

/-- `WBYTE d` (R80, R89). -/
def execWbyte (d : Byte) (s : State) : Host.Outcome State Fault Refusal :=
  unlessHalted (whenActive (appendByte d)) s

end Sys2Proof.Machine
end

