-- ==== Sys2Proof/Machine/Dispatch.lean ====
section
/-!
DEFINITION. The dispatch: one arm per row of the opcode table (spec/10_state.md R26).
-/

namespace Sys2Proof.Machine

/-- The step of one decoded token (R26). -/
def exec (i : Instr) (s : State) : Host.Outcome State Fault Refusal :=
  match i with
  | .init => Sys2Proof.Machine.execInit s
  | .wbyte d => Sys2Proof.Machine.execWbyte d s
  | .finalize => Sys2Proof.Machine.execFinalize s
  | .reservedOp0B7 data => Sys2Proof.Machine.execReservedOp0B7 data s
  | .reservedOp0B6 data => Sys2Proof.Machine.execReservedOp0B6 data s
  | .reservedOp0B5 data => Sys2Proof.Machine.execReservedOp0B5 data s
  | .reservedOp0B4 data => Sys2Proof.Machine.execReservedOp0B4 data s
  | .reservedOp0B3 data => Sys2Proof.Machine.execReservedOp0B3 data s
  | .reservedOp0B2 data => Sys2Proof.Machine.execReservedOp0B2 data s
  | .reservedOp0B1 data => Sys2Proof.Machine.execReservedOp0B1 data s
  | .reservedOp0B0 => Sys2Proof.Machine.execReservedOp0B0 s
  | .reservedOp2B7 data => Sys2Proof.Machine.execReservedOp2B7 data s
  | .reservedOp2B6 data => Sys2Proof.Machine.execReservedOp2B6 data s
  | .reservedOp2B5 data => Sys2Proof.Machine.execReservedOp2B5 data s
  | .reservedOp2B4 data => Sys2Proof.Machine.execReservedOp2B4 data s
  | .reservedOp2B3 data => Sys2Proof.Machine.execReservedOp2B3 data s
  | .reservedOp2B2 data => Sys2Proof.Machine.execReservedOp2B2 data s
  | .reservedOp2B1 data => Sys2Proof.Machine.execReservedOp2B1 data s
  | .reservedOp2B0 => Sys2Proof.Machine.execReservedOp2B0 s
  | .reservedOp3 data => Sys2Proof.Machine.execReservedOp3 data s

end Sys2Proof.Machine
end

