-- ==== Sys2Proof/Machine/Step.lean ====
section
/-!
DEFINITION. One step of the engine: it accepts the next token of the command port, if the host presents one, and
executes it completely (spec/00_scope.md R11, spec/30_encoding.md R56).
-/

namespace Sys2Proof.Machine

/-- One step. With no token presented the engine waits and all state survives
(spec/60_exceptions.md R141, spec/70_reset_and_hazards.md R161). -/
def step (s : State) : Host.Outcome State Fault Refusal :=
  match s.port with
  | [] => .next s
  | c :: rest => exec (decode c) { s with port := rest }

/-- `s` with the token of the `nbits` low bits of `w` presented next on the command port. DESIGN CHOICE
(notes/assumptions/4.md): fewer than 10 bits are extended with zeros, and bits wider than a token cannot be presented,
so that `s` is then unchanged. -/
def State.withFetchWord (s : State) (nbits w : Nat) : State :=
  match tokenOfBits nbits w with
  | .ok c => { s with port := c :: s.port }
  | .error _ => s

end Sys2Proof.Machine
end

