-- ==== Sys2Proof/Machine/Flags.lean ====
section
/-!
DEFINITION. The status register `STATUS` (spec/10_state.md R23 to R25) and its codes (spec/60_exceptions.md R126).
The engine has no other flag: no command sets one from a computation (R25, R106).
-/

namespace Sys2Proof.Machine

/-- The 2-bit code of `PHASE` (R23). -/
def phaseCode : Phase → BitVec 2
  | .uninit => 0
  | .active => 1
  | .consumed => 2

/-- The 2-bit code of `CAUSE` (R126). -/
def causeCode : Option EngineFault → BitVec 2
  | none => 0
  | some .illegalCommand => 1
  | some .notInitialized => 2
  | some .consumed => 3

/-- `STATUS`: bits 7:5 zero, 4:3 `CAUSE`, 2 `ERR`, 1:0 `PHASE` (R24). -/
def status (s : State) : BitVec 8 :=
  0#3 ++ causeCode s.cause ++ BitVec.ofBool s.err ++ phaseCode s.phase

end Sys2Proof.Machine
end

