-- ==== Sys2Proof/Machine/Ports.lean ====
section
/-!
DEFINITION. The ports as the host sees them between steps (spec/30_encoding.md R55, R56, R72) and the run of a
sequence of tokens with what the host reads after each (R56, spec/70_reset_and_hazards.md R161).
-/

namespace Sys2Proof.Machine

/-- Port `digest`: `OUT` with `OUT[0]` in the most significant byte (R72). -/
def digestPort (s : State) : BitVec 256 :=
  (outBytes s).foldl (fun v b => (v <<< 8) ||| b.setWidth 256) 0

/-- Port `status` (R72, R24). -/
def statusPort (s : State) : BitVec 8 := status s

/-- Port `cmd_valid`: the host presents a token (R55). -/
def cmdValid (s : State) : Bool := !s.port.isEmpty

/-- Port `cmd_ready`: 1 between steps, in every state, the halted ones included (R56). -/
def cmdReady (_s : State) : Bool := true

/-- What the host reads after a step (R30, R56). -/
def observe (s : State) : BitVec 256 × BitVec 8 := (digestPort s, statusPort s)

/-- Execute instructions one after another, stopping where one stops. -/
def execAll : List Instr → State → Host.Outcome State Fault Refusal
  | [], s => .next s
  | i :: is, s =>
    match exec i s with
    | .next t => execAll is t
    | .fault r => .fault r
    | .refused r => .refused r

/-- The model as the function of R56: from accepted tokens to the (`OUT`, `STATUS`) after each step. -/
def observations : List Token → State → List (BitVec 256 × BitVec 8)
  | [], _ => []
  | c :: cs, s =>
    match exec (decode c) s with
    | .next t => observe t :: observations cs t
    | .fault _ => []
    | .refused _ => []

end Sys2Proof.Machine
end

