-- ==== Sys2Proof/Machine/Pseudo.lean ====
section
/-!
DEFINITION. The pseudo-instructions `WRITE` and `HASH` (spec/30_encoding.md R69, R70), the transaction view of a write
(spec/41_write.md R84), and the digest function `SHA256` over whole messages (spec/43_finalize.md R119, R120).
-/

namespace Sys2Proof.Machine

/-- `WRITE data`: one `WBYTE` a byte, in order (R69). -/
def assembleWrite (data : List Byte) : List Instr := data.map Instr.wbyte

/-- `HASH data`: `INIT`, `WRITE data`, `FINALIZE` (R70). -/
def assembleHash (data : List Byte) : List Instr := .init :: (assembleWrite data ++ [.finalize])

/-- The loop of R84 on `H`, `BUF` and the running fill count, which reaches 64 for a moment
(spec/90_conflicts.md C2); `free` gives the bytes of `BUF` that hold `UNSPEC`. -/
def writeLoop (free : Nat → Byte) : List Byte → Words8 → Memory → Nat → Words8 × Memory × Nat
  | [], h, buf, n => (h, buf, n)
  | d :: ds, h, buf, n =>
    let buf' := buf.write n d
    if n + 1 = 64 then
      writeLoop free ds (compress h fun i => (buf'.byte? i.val).getD (free i.val)) buf' 0
    else writeLoop free ds h buf' (n + 1)

/-- `WRITE(data, len)` as one transaction in phase `ACTIVE` (R84). -/
def writeTransaction (data : List Byte) (s : State) : State :=
  let r := writeLoop (Config.unspecBuf s.draws) data s.h s.buf s.nbuf.val
  { s with
    h := r.1
    buf := r.2.1
    nbuf := Fin.ofNat 64 r.2.2
    len := add64 s.len (BitVec.ofNat 64 data.length) }

/-- Block `j` of a byte string: its bytes `64j .. 64j+63` (R88, R120). -/
def blockOf (m : List Byte) (j : Nat) : Fin 64 → Byte := fun i => m.getD (64 * j + i.val) 0

/-- `C_q`: the words after the first `q` blocks of a byte string, from `C_0 = IV` (R88, R120). -/
def chainWords (m : List Byte) : Nat → Words8
  | 0 => iv
  | j + 1 => compress (chainWords m j) (blockOf m j)

/-- Number of zero bytes of the padding, `(55 - n) mod 64` (R119). -/
def padZeros (n : Nat) : Nat := (119 - n % 64) % 64

/-- The padded message `P(M)` (R119). -/
def paddedMessage (m : List Byte) : List Byte :=
  m ++ [Config.padMark] ++ List.replicate (padZeros m.length) 0x00#8
    ++ bytes64 (BitVec.ofNat 64 (8 * m.length))

/-- The digest function `SHA256(M)` (R120). -/
def sha256 (m : List Byte) : List Byte :=
  bytesOfWords (chainWords (paddedMessage m) ((paddedMessage m).length / 64))

end Sys2Proof.Machine
end

