-- ==== Sys2Proof/Safety.lean ====
section
/-!
DEFINITION. What counts as a safe run, in the terms the statements use: a run that has not gone wrong
(spec/70_reset_and_hazards.md R161), a digest that may be read (R154), the invariant of the engine at rest
(spec/10_state.md R27, R28, spec/93 V4), which states agree on everything the spec defines (R33), valid use
(spec/60_exceptions.md R125), the reserved tokens (spec/30_encoding.md R64) and the padded blocks
(spec/43_finalize.md R112 to R114).
-/

namespace Sys2Proof.Machine

/-- The run has not gone wrong (R161). -/
abbrev State.good (s : State) : Prop := s.err = false

/-- `OUT` holds the digest of the latest message (R154). -/
abbrev State.digestReady (s : State) : Prop := s.phase = .consumed ∧ s.err = false

/-- The addresses below `n` hold stored bytes. -/
abbrev Memory.holdsBelow (m : Memory) (n : Nat) : Prop := ∀ a, a < n → (m.byte? a).isSome = true

/-- The invariant of the engine at rest: both memories are in canonical form; `CAUSE` is 0 exactly when
`ERR = 0` (V4, R131); in `ACTIVE`, `NBUF = LEN mod 64` (R28) and `BUF[0..NBUF-1]` hold stored bytes (R27);
in `CONSUMED` all 32 bytes of `OUT` are stored (R116). -/
structure State.Inv (s : State) : Prop where
  buf_wf : Memory.wf 64 s.buf = true
  out_wf : Memory.wf 32 s.out = true
  cause_none : s.cause = none ↔ s.err = false
  nbuf_len : s.phase = .active → s.nbuf.val = s.len.toNat % 64
  buf_defined : s.phase = .active → s.buf.holdsBelow s.nbuf.val
  out_defined : s.phase = .consumed → s.out.holdsBelow 32

/-- Two states agree on everything the spec defines in them (R27, R29, R31, R33): `STATUS`; in `ACTIVE` also `H`,
`NBUF`, `LEN` and `BUF[0..NBUF-1]`; in `CONSUMED` also `OUT`. -/
structure State.SameDefined (s t : State) : Prop where
  phase : s.phase = t.phase
  err : s.err = t.err
  cause : s.cause = t.cause
  h : s.phase = .active → s.h = t.h
  nbuf : s.phase = .active → s.nbuf = t.nbuf
  len : s.phase = .active → s.len = t.len
  buf : s.phase = .active → ∀ a, a < s.nbuf.val → bufByte s a = bufByte t a
  out : s.phase = .consumed → ∀ a, a < 32 → outByte s a = outByte t a

/-- The token lies in one of the three reserved ranges (R64). -/
abbrev reservedToken (c : Token) : Prop :=
  (0x001 ≤ c.toNat ∧ c.toNat ≤ 0x0FF) ∨ (0x201 ≤ c.toNat ∧ c.toNat ≤ 0x2FF) ∨
    (0x300 ≤ c.toNat ∧ c.toNat ≤ 0x3FF)

/-- A sequence of tokens the host may send in a phase (R125, R148, R151, R157): `INIT` at any point, `WBYTE` and
`FINALIZE` only between an `INIT` and its `FINALIZE`. -/
def validUse : Phase → List Instr → Bool
  | _, [] => true
  | _, .init :: is => validUse .active is
  | .active, .wbyte _ :: is => validUse .active is
  | .active, .finalize :: is => validUse .consumed is
  | _, _ => false

/-- Byte `i` of a block whose last 8 bytes are the length field `(LEN * 8) mod 2^64`, big-endian
(R111, R114, spec/20_memory.md R41). -/
def lengthByte (len : BitVec 64) (i : Nat) : Byte := (len * 8).extractLsb' (8 * (63 - i)) 8

/-- The padded block of a message whose last part leaves room for the length, `NBUF <= 55` (R112, R114). -/
def shortPadBlock (s : State) : Fin 64 → Byte := fun i =>
  if i.val < s.nbuf.val then bufByte s i
  else if i.val = s.nbuf.val then 0x80
  else if i.val < 56 then 0x00
  else lengthByte s.len i

/-- The first padded block when `NBUF > 55`: marker and zeros, no room for the length (R112, R113). -/
def longPadFirst (s : State) : Fin 64 → Byte := fun i =>
  if i.val < s.nbuf.val then bufByte s i
  else if i.val = s.nbuf.val then 0x80
  else 0x00

/-- The second padded block when `NBUF > 55`: zeros and the length (R113, R114). -/
def longPadSecond (s : State) : Fin 64 → Byte := fun i =>
  if i.val < 56 then 0x00 else lengthByte s.len i

/-- The words `SERIALIZE` reads: after one compression if `NBUF <= 55`, after two otherwise (R115). -/
def finalWords (s : State) : Words8 :=
  if s.nbuf.val ≤ 55 then compress s.h (shortPadBlock s)
  else compress (compress s.h (longPadFirst s)) (longPadSecond s)

end Sys2Proof.Machine
end

