-- ==== Sys2Proof/Certificates/Slice0/Obligations.lean ====
section
/-!
DEFINITION. The statements for the provers, from the numbered rules of spec/. Each docstring names the rules it
formalises. A statement about a next state says that `exec` answers one.
-/

open Sys2Proof Sys2Proof.Machine

/-! ## Encoding (spec/30_encoding.md) -/

/-- R60, R64, R65: for every well-formed term of every row, the decoder reads back what the encoder writes. -/
def Obligations.DecodeInvertsEncode : Prop :=
  ∀ i : Instr, i.wellFormed = true → decode (encode i) = i

/-- R65, whole: the four outcomes of `decode`, the values of `encode`, and that they are inverse to each other on the
three commands and the non-reserved tokens. That decoding depends on no state is the type of `decode`. -/
def Obligations.DecoderFollowsRule65 : Prop :=
  (∀ (c : Token) (d : Byte), c.toNat = 0x100 + d.toNat → decode c = .wbyte d) ∧
  decode 0x000#10 = .init ∧ decode 0x200#10 = .finalize ∧
  (∀ c : Token, reservedToken c ↔ (decode c).isReserved = true) ∧
  encode .init = 0x000#10 ∧ (∀ d : Byte, (encode (.wbyte d)).toNat = 0x100 + d.toNat) ∧
  encode .finalize = 0x200#10 ∧
  decode (encode .init) = .init ∧ (∀ d : Byte, decode (encode (.wbyte d)) = .wbyte d) ∧
  decode (encode .finalize) = .finalize ∧
  ∀ c : Token, (decode c).isReserved = false → encode (decode c) = c

/-- R60: every one of the 1024 token values selects exactly one row of the opcode table, the row of the instruction it
decodes to, which is well formed and encodes to that token. -/
def Obligations.EveryTokenSelectsOneRow : Prop :=
  ∀ c : Token, opcodeTable.filter (fun r => rowSelects r c) = [rowOf (decode c)] ∧
    (decode c).wellFormed = true ∧ encode (decode c) = c

/-- spec/95 section 3: the tokens written out there decode as it says, reserved ones to the row of R60. -/
def Obligations.WrittenOutTokensDecode : Prop :=
  decode 0b0000000000#10 = .init ∧ decode 0b0100000000#10 = .wbyte 0x00 ∧
  decode 0b0101100001#10 = .wbyte 0x61 ∧ decode 0b0110000000#10 = .wbyte 0x80 ∧
  decode 0b0111111111#10 = .wbyte 0xff ∧ decode 0b1000000000#10 = .finalize ∧
  decode 0b0000000001#10 = .reservedOp0B0 ∧ decode 0b0011111111#10 = .reservedOp0B7 0xff ∧
  decode 0b1000000001#10 = .reservedOp2B0 ∧ decode 0b1011111111#10 = .reservedOp2B7 0xff ∧
  decode 0b1100000000#10 = .reservedOp3 0x00 ∧ decode 0b1111111111#10 = .reservedOp3 0xff

/-- R57, R60: bits numbered as the opcode table numbers them decode as the token they are. Where the bits are
not 10 this is the model's choice (notes/assumptions/4.md), no rule of the spec, which gives them no outcome: fewer are
extended with zeros to a token (first clause), and a string wider than a token is refused as
`DecodeError.widerThanToken` (second clause). -/
def Obligations.TableBitsDecode : Prop :=
  ∀ nbits w : Nat,
    (∀ c : Token, w % 2 ^ nbits = c.toNat → decodeTableWord nbits w = some (decode c)) ∧
    (1024 ≤ w % 2 ^ nbits → decodeBits nbits w = .error .widerThanToken)

/-! ## Steps (spec/00_scope.md R11, spec/30_encoding.md R56) -/

/-- R11, R56: when the host presents a token, `step` accepts it and is `exec` of the instruction it decodes to, on
the state with that token taken from the port. R141: when it presents none, the engine waits and all state survives. The
form is the model's choice (notes/assumptions/4.md), no rule of the spec: that the presented tokens are the list `port`, that
waiting is a step that changes nothing, and that a token placed by `withFetchWord` is the one the next step executes. -/
def Obligations.StepRunsTheDecodedToken : Prop :=
  (∀ (s : State) (c : Token) (rest : List Token), s.port = c :: rest →
    step s = exec (decode c) { s with port := rest }) ∧
  (∀ s : State, s.port = [] → step s = .next s) ∧
  ∀ (s : State) (nbits w : Nat) (c : Token), w % 2 ^ nbits = c.toNat →
    step (s.withFetchWord nbits w) = exec (decode c) s

/-- R26 (a total table), R106, R131, R132, R159: no token stops the engine. In every state, reached or not, `exec` of
every instruction and `step` answer a next state. -/
def Obligations.NoTokenStopsTheEngine : Prop :=
  (∀ (i : Instr) (s : State), ∃ t, exec i s = .next t) ∧ ∀ s : State, ∃ t, step s = .next t

/-- R56, R161: running the tokens on the port one step each is executing the instructions they decode to in order, so
each accepted token causes exactly one step. That the tokens are the list `port` is the model's choice
(notes/assumptions/4.md). -/
def Obligations.RunIsTheDecodedSequence : Prop :=
  ∀ s : State, ∃ t, execAll (s.port.map decode) { s with port := [] } = .next t ∧
    Sys2Proof.core.run s.port.length s = .next t

/-- R56: the host reads one (`OUT`, `STATUS`) after each token of any sequence, and they are those of the state the
whole sequence up to it leads to. -/
def Obligations.OneObservationPerToken : Prop :=
  ∀ (cs : List Token) (s : State), (observations cs s).length = cs.length ∧
    ∀ (k : Nat) (t : State), k < cs.length → execAll ((cs.take (k + 1)).map decode) s = .next t →
      (observations cs s)[k]? = some (digestPort t, statusPort t)

/-! ## The invariant (spec/10_state.md R24, R27, R28) -/

/-- R24, R27, R28, R35, R116: every step keeps the invariant of the engine at rest, from every state that has it: the
canonical form of both memories, `CAUSE` 0 exactly when `ERR` is 0, in `ACTIVE` `NBUF = LEN mod 64` and
`BUF[0..NBUF-1]` stored, in `CONSUMED` all of `OUT` stored. -/
def Obligations.StepKeepsTheInvariant : Prop :=
  ∀ s t : State, s.Inv → step s = .next t → t.Inv

/-- R31, R145: the invariant holds in the reset state, and after a hardware reset of any engine. -/
def Obligations.ResetHasTheInvariant : Prop :=
  State.reset.Inv ∧ ∀ s : State, (assertReset s).Inv

/-! ## Faults (spec/60_exceptions.md) -/

/-- R132, whole: a halted engine ignores every token; the step only takes it from the port; `OUT` and `STATUS` keep
being driven with their values; the run is not a good one. -/
def Obligations.HaltedEngineIgnoresEveryToken : Prop :=
  ∀ s : State, s.err = true →
    (∀ i : Instr, exec i s = .next s) ∧
    (∀ (c : Token) (rest : List Token), s.port = c :: rest →
      ∃ t, step s = .next t ∧ t = { s with port := rest } ∧ digestPort t = digestPort s ∧
        statusPort t = statusPort s) ∧
    ¬ s.good

/-- R127, whole: a reserved token raises `IllegalCommand` in any phase; nothing else changes (R131). -/
def Obligations.ReservedTokenRaisesIllegalCommand : Prop :=
  ∀ (c : Token) (s : State), reservedToken c → s.err = false →
    exec (decode c) s = .next { s with err := true, cause := some .illegalCommand }

/-- R64, R127, R131: each of the 17 reserved rows, named, completes with its fault entry on every engine that is not
halted. -/
def Obligations.EveryReservedRowCompletes : Prop :=
  ∀ (d : Byte) (s : State), s.err = false →
    let t : State := { s with err := true, cause := some .illegalCommand }
    exec (.reservedOp0B7 d) s = .next t ∧ exec (.reservedOp0B6 d) s = .next t ∧
    exec (.reservedOp0B5 d) s = .next t ∧ exec (.reservedOp0B4 d) s = .next t ∧
    exec (.reservedOp0B3 d) s = .next t ∧ exec (.reservedOp0B2 d) s = .next t ∧
    exec (.reservedOp0B1 d) s = .next t ∧ exec .reservedOp0B0 s = .next t ∧
    exec (.reservedOp2B7 d) s = .next t ∧ exec (.reservedOp2B6 d) s = .next t ∧
    exec (.reservedOp2B5 d) s = .next t ∧ exec (.reservedOp2B4 d) s = .next t ∧
    exec (.reservedOp2B3 d) s = .next t ∧ exec (.reservedOp2B2 d) s = .next t ∧
    exec (.reservedOp2B1 d) s = .next t ∧ exec .reservedOp2B0 s = .next t ∧
    exec (.reservedOp3 d) s = .next t

/-- R128, whole: `WBYTE d` (any `d`) and `FINALIZE` before the first `INIT` raise `NotInitialized`. -/
def Obligations.CommandBeforeInitFaults : Prop :=
  ∀ (d : Byte) (s : State), s.err = false → s.phase = .uninit →
    exec (.wbyte d) s = .next { s with err := true, cause := some .notInitialized } ∧
    exec .finalize s = .next { s with err := true, cause := some .notInitialized }

/-- R129, whole: `WBYTE d` (any `d`) and `FINALIZE` after a `FINALIZE` with no `INIT` since raise `Consumed`. -/
def Obligations.CommandAfterFinalizeFaults : Prop :=
  ∀ (d : Byte) (s : State), s.err = false → s.phase = .consumed →
    exec (.wbyte d) s = .next { s with err := true, cause := some .consumed } ∧
    exec .finalize s = .next { s with err := true, cause := some .consumed }

/-- R130, whole: the order of the checks on any token, and its example 0x2FF in `UNINIT`. -/
def Obligations.ChecksAreInOrder : Prop :=
  (∀ (c : Token) (s : State),
    (s.err = true → exec (decode c) s = .next s) ∧
    (s.err = false → reservedToken c →
      exec (decode c) s = .next { s with err := true, cause := some .illegalCommand }) ∧
    (s.err = false → ((0x100 ≤ c.toNat ∧ c.toNat ≤ 0x1FF) ∨ c = 0x200#10) →
      (s.phase = .uninit →
        exec (decode c) s = .next { s with err := true, cause := some .notInitialized }) ∧
      (s.phase = .consumed →
        exec (decode c) s = .next { s with err := true, cause := some .consumed }))) ∧
  ∀ s : State, s.err = false → s.phase = .uninit →
    exec (decode 0x2FF#10) s = .next { s with err := true, cause := some .illegalCommand }

/-- R131, whole: a step that sets `ERR` changes `ERR` and `CAUSE` and nothing else, and the engine is then halted, so
that `CAUSE` stays the first fault whatever tokens follow. -/
def Obligations.FaultEntryIsPrecise : Prop :=
  ∀ (i : Instr) (s t : State), s.err = false → exec i s = .next t → t.err = true →
    (∃ x : EngineFault, t = { s with err := true, cause := some x } ∧
      (status t).extractLsb' 3 2 = (match x with
        | .illegalCommand => 1#2
        | .notInitialized => 2#2
        | .consumed => 3#2)) ∧
    ∀ is : List Instr, execAll is t = .next t

/-- R26, R126 ("and no other"), R136: the only tokens that set `ERR` on an engine that is not halted are the reserved
ones, and `WBYTE` and `FINALIZE` outside `ACTIVE`; whatever the data, the counters and the sums are. -/
def Obligations.OnlyMisuseSetsErr : Prop :=
  ∀ (i : Instr) (s : State), s.err = false → ∃ t, exec i s = .next t ∧
    (t.err = true ↔
      i.isReserved = true ∨ (s.phase ≠ .active ∧ ((∃ d, i = .wbyte d) ∨ i = .finalize)))

/-- R26: the next `PHASE` of every token in every state. -/
def Obligations.PhaseFollowsTheTable : Prop :=
  ∀ (i : Instr) (s : State), ∃ t, exec i s = .next t ∧
    (t.phase = .active ↔ if s.err = true then s.phase = .active else
      (i = .init ∨ (s.phase = .active ∧ i ≠ .finalize))) ∧
    (t.phase = .consumed ↔ if s.err = true then s.phase = .consumed else
      (i ≠ .init ∧ (s.phase = .consumed ∨ (s.phase = .active ∧ i = .finalize)))) ∧
    (t.phase = .uninit ↔ s.phase = .uninit ∧ (s.err = true ∨ i ≠ .init))

/-- R133, in the first two clauses: no token clears `ERR` or changes `CAUSE` of a halted engine (`INIT` included, no second
fault); the hardware reset clears both. The third clause gives "loses all other state" the model's form, which is its
choice and no rule of the spec (R10 promises no equality of two draws): the reset is the operation `assertReset`, which
keeps the port (notes/assumptions/6.md), and the registers it leaves are fixed by the number of the draw alone
(notes/assumptions/1.md), so nothing of their old contents remains. -/
def Obligations.OnlyResetLeavesTheHaltedState : Prop :=
  (∀ s t : State, s.err = true → step s = .next t → t.err = true ∧ t.cause = s.cause) ∧
  (∀ s : State, (assertReset s).err = false ∧ (assertReset s).cause = none) ∧
  ∀ s s' : State, s.draws = s'.draws → s.port = s'.port → assertReset s = assertReset s'

/-- R125, R26: from any engine that is not halted, a sequence of instructions raises no fault, and completes, exactly
when it is valid use in the phase the engine is in. -/
def Obligations.ValidUseNeverFaults : Prop :=
  ∀ (is : List Instr) (s : State), s.err = false →
    ∃ t, execAll is s = .next t ∧ (t.err = false ↔ validUse s.phase is = true)

/-! ## `INIT` (spec/40_initialize.md) -/

/-- R73, whole: `INIT` in any phase, with the eight values written out, and its example from the reset state. -/
def Obligations.InitStartsAMessage : Prop :=
  (∀ s : State, s.err = false →
    exec .init s = .next { s with
      h := #v[0x6a09e667, 0xbb67ae85, 0x3c6ef372, 0xa54ff53a,
              0x510e527f, 0x9b05688c, 0x1f83d9ab, 0x5be0cd19]
      nbuf := 0
      len := 0
      phase := .active }) ∧
  ∃ t, exec .init State.reset = .next t ∧ status t = 0x01

/-- R74: `INIT` reads no state: after it `H`, `NBUF`, `LEN`, `PHASE` are the same whatever the state before, in every
phase; no digest is produced; two in a row equal one. -/
def Obligations.InitForgetsThePast : Prop :=
  ∀ s s' : State, s.err = false → s'.err = false →
    ∃ t t', exec .init s = .next t ∧ exec .init s' = .next t' ∧
      t.h = t'.h ∧ t.nbuf = t'.nbuf ∧ t.len = t'.len ∧ t.phase = t'.phase ∧
      (∀ a, outByte t a = outByte s a) ∧ exec .init t = .next t

/-- Frame of `INIT` (R73, R75, R76, R77): every byte of `BUF` and of `OUT`, `ERR`, `CAUSE` and the model's own fields are
unchanged. -/
def Obligations.InitFrame : Prop :=
  ∀ s t : State, exec .init s = .next t →
    (∀ a, bufByte t a = bufByte s a) ∧ (∀ a, outByte t a = outByte s a) ∧
    t.buf = s.buf ∧ t.out = s.out ∧ t.err = s.err ∧ t.cause = s.cause ∧
    t.draws = s.draws ∧ t.port = s.port

/-! ## `WBYTE` and `WRITE` (spec/41_write.md) -/

/-- R80, R81, R89, whole (with R82, R83): what `WBYTE d` does in phase `ACTIVE`, for every fill count and every `d`; the
faults outside `ACTIVE`, which change nothing else; that a halted engine ignores it. -/
def Obligations.WbyteAppendsAByte : Prop :=
  ∀ (d : Byte) (s : State),
    (s.err = false → s.phase = .active →
      ∃ t, exec (.wbyte d) s = .next t ∧
        (∀ a, bufByte t a = if a = s.nbuf.val then d else bufByte s a) ∧
        t.len = s.len + 1 ∧
        (if s.nbuf.val = 63 then
          t.nbuf.val = 0 ∧ t.h = compress s.h (fun i => if i.val = 63 then d else bufByte s i)
        else t.nbuf.val = s.nbuf.val + 1 ∧ t.h = s.h) ∧
        t.phase = .active ∧ (∀ a, outByte t a = outByte s a) ∧ t.err = s.err ∧ t.cause = s.cause) ∧
    (s.err = false → s.phase = .uninit →
      exec (.wbyte d) s = .next { s with err := true, cause := some .notInitialized }) ∧
    (s.err = false → s.phase = .consumed →
      exec (.wbyte d) s = .next { s with err := true, cause := some .consumed }) ∧
    (s.err = true → exec (.wbyte d) s = .next s)

/-- Frame of `WBYTE` (R80, R81, R89) in every state: only the byte at `NBUF` of `BUF` can change; `OUT`, `PHASE` and the
model's own fields do not; outside `ACTIVE`, and when halted, `H`, `NBUF`, `LEN` and all of `BUF` are unchanged too. -/
def Obligations.WbyteFrame : Prop :=
  ∀ (d : Byte) (s t : State), exec (.wbyte d) s = .next t →
    (∀ a, a ≠ s.nbuf.val → bufByte t a = bufByte s a) ∧
    (∀ a, outByte t a = outByte s a) ∧ t.phase = s.phase ∧ t.draws = s.draws ∧ t.port = s.port ∧
    (s.nbuf.val ≠ 63 → t.h = s.h) ∧
    (s.err = true ∨ s.phase ≠ .active →
      (∀ a, bufByte t a = bufByte s a) ∧ t.h = s.h ∧ t.nbuf = s.nbuf ∧ t.len = s.len)

/-- R82: `LEN` increases by exactly 1 modulo 2^64 per `WBYTE`, whether or not the step compresses, and the wrap sets no
flag. -/
def Obligations.LenCountsEveryByte : Prop :=
  ∀ (d : Byte) (s : State), s.err = false → s.phase = .active →
    ∃ t, exec (.wbyte d) s = .next t ∧ t.len.toNat = (s.len.toNat + 1) % 2 ^ 64 ∧
      status t = status s

/-- R85: `WRITE(data, len)` as one transaction has exactly the effect of its beats in order, and between the beats the
host sees `STATUS` unchanged. -/
def Obligations.WriteIsItsBeats : Prop :=
  ∀ (data : List Byte) (s : State), s.err = false → s.phase = .active →
    execAll (assembleWrite data) s = .next (writeTransaction data s) ∧
    ∀ k t, execAll (assembleWrite (data.take k)) s = .next t → status t = status s

/-- R86: a zero-length write changes nothing, and is no token at all, so it faults in no state. -/
def Obligations.ZeroLengthWriteChangesNothing : Prop :=
  ∀ s : State, writeTransaction [] s = s ∧ assembleWrite [] = [] ∧
    execAll (assembleWrite []) s = .next s

/-- R87, in the first clause: writing a byte sequence in any chunks, empty ones included, gives the state of writing it at
once. The second clause says more than the equal digests of R87: the outcomes of `FINALIZE` are equal as a whole, the free
values of `H`, `BUF`, `NBUF`, `LEN` included. That two draws with one number are equal is the model's choice
(notes/assumptions/1.md) and no rule of the spec (R10). -/
def Obligations.WritesAreChunkInvariant : Prop :=
  ∀ (chunks : List (List Byte)) (s : State),
    chunks.foldl (fun t c => writeTransaction c t) s = writeTransaction chunks.flatten s ∧
    exec .finalize (chunks.foldl (fun t c => writeTransaction c t) s) =
      exec .finalize (writeTransaction chunks.flatten s)

/-- R88: the closed form of the state after `INIT` and the bytes of `M`, in any chunking. -/
def Obligations.ClosedFormAfterWriting : Prop :=
  ∀ (chunks : List (List Byte)) (m : List Byte) (s : State), chunks.flatten = m →
    m.length < 2 ^ 64 → s.err = false →
    ∃ t, execAll (.init :: chunks.flatMap assembleWrite) s = .next t ∧
      t.len.toNat = m.length ∧ t.nbuf.val = m.length % 64 ∧
      t.h = chainWords m (m.length / 64) ∧
      (∀ i, i < t.nbuf.val → bufByte t i = m.getD (64 * (m.length / 64) + i) 0) ∧
      t.phase = .active ∧ t.err = false

/-! ## `COMPRESS` (spec/42_compress.md) -/

/-- R92, R93 and the remark at the head of spec/42_compress.md: each `IV[i]` is the first 32 bits of the fractional part of
the square root of the i-th prime, each `K[t]` that of the cube root of the t-th: with an integer part `q`,
`q * 2^32 + IV[i]` is the integer part of the root of `p * 2^64`, and `q * 2^32 + K[t]` that of the cube root of `p * 2^96`. -/
def Obligations.ConstantsAreRootsOfPrimes : Prop :=
  let primes : List Nat := [2, 3, 5, 7, 11, 13, 17, 19, 23, 29, 31, 37, 41, 43, 47, 53, 59, 61, 67, 71, 73, 79, 83, 89,
    97, 101, 103, 107, 109, 113, 127, 131, 137, 139, 149, 151, 157, 163, 167, 173, 179, 181, 191, 193, 197, 199, 211,
    223, 227, 229, 233, 239, 241, 251, 257, 263, 269, 271, 277, 281, 283, 293, 307, 311]
  (∀ i : Fin 8, ∃ q, q < 8 ∧ let n := q * 2 ^ 32 + (iv[i] : Word).toNat
    n ^ 2 ≤ primes.getD i 0 * 2 ^ 64 ∧ primes.getD i 0 * 2 ^ 64 < (n + 1) ^ 2) ∧
  roundConstants.length = 64 ∧
  ∀ t, t < 64 → ∃ q, q < 8 ∧ let n := q * 2 ^ 32 + (roundConstants.getD t 0).toNat
    n ^ 3 ≤ primes.getD t 0 * 2 ^ 96 ∧ primes.getD t 0 * 2 ^ 96 < (n + 1) ^ 3

/-- R100, R101: the message schedule has 64 entries, loaded big-endian and expanded by the recurrence. -/
def Obligations.ScheduleFollowsTheRecurrence : Prop :=
  ∀ s : State, let w := schedule (bufBlock s)
    w.length = 64 ∧
    (∀ t, t < 16 → (w.getD t 0).toNat = (bufByte s (4 * t)).toNat * 2 ^ 24 +
      (bufByte s (4 * t + 1)).toNat * 2 ^ 16 + (bufByte s (4 * t + 2)).toNat * 2 ^ 8 +
      (bufByte s (4 * t + 3)).toNat) ∧
    ∀ t, 16 ≤ t → t < 64 → w.getD t 0 =
      ssig1 (w.getD (t - 2) 0) + w.getD (t - 7) 0 + ssig0 (w.getD (t - 15) 0) + w.getD (t - 16) 0

/-- R102, R103, R104: working-register load, the 64 rounds, each with its `K[t]` and `W[t]`, and the add-back. -/
def Obligations.RoundsAndAddBack : Prop :=
  ∀ (hin : Words8) (b : Fin 64 → Byte),
    let v := workingAfter hin (schedule b)
    v 0 = ⟨hin[0], hin[1], hin[2], hin[3], hin[4], hin[5], hin[6], hin[7]⟩ ∧
    (∀ t, t < 64 →
      let t1 := (v t).h + bsig1 (v t).e + ch (v t).e (v t).f (v t).g + roundConstants.getD t 0 +
        (schedule b).getD t 0
      let t2 := bsig0 (v t).a + maj (v t).a (v t).b (v t).c
      v (t + 1) = ⟨t1 + t2, (v t).a, (v t).b, (v t).c, (v t).d + t1, (v t).e, (v t).f, (v t).g⟩) ∧
    compress hin b = #v[hin[0] + (v 64).a, hin[1] + (v 64).b, hin[2] + (v 64).c, hin[3] + (v 64).d,
      hin[4] + (v 64).e, hin[5] + (v 64).f, hin[6] + (v 64).g, hin[7] + (v 64).h]

/-- R90: `COMPRESS` reads `H` and the 64 bytes of `BUF` only, and writes `H` only. -/
def Obligations.CompressReadsBlockWritesH : Prop :=
  ∀ s t : State, s.h = t.h → (∀ a, a < 64 → bufByte s a = bufByte t a) →
    (compressBuf s).h = (compressBuf t).h ∧ (compressBuf s).h = compress s.h (bufBlock s) ∧
    { compressBuf s with h := s.h } = s

/-- R8: the arithmetic primitives as functions of the numbers: wrapping sums, rotation right `x[n-1:0] ++ x[31:n]`,
logical shift right, and `(x * 2^n) mod 2^64`. -/
def Obligations.ArithmeticPrimitives : Prop :=
  (∀ x y : Word, (add32 x y).toNat = (x.toNat + y.toNat) % 2 ^ 32) ∧
  (∀ x y : BitVec 64, (add64 x y).toNat = (x.toNat + y.toNat) % 2 ^ 64) ∧
  (∀ (x : Word) (n : Nat), 0 < n → n < 32 →
    (rotr x n).toNat = x.toNat % 2 ^ n * 2 ^ (32 - n) + x.toNat / 2 ^ n ∧
    (shr x n).toNat = x.toNat / 2 ^ n) ∧
  ∀ (x : BitVec 64) (n : Nat), (shl64 x n).toNat = x.toNat * 2 ^ n % 2 ^ 64

/-- R94, R95: `Ch` and `Maj`, by their formulas and bit by bit. -/
def Obligations.ChooseAndMajority : Prop :=
  ∀ x y z : Word,
    ch x y z = (x &&& y) ^^^ (~~~x &&& z) ∧
    maj x y z = (x &&& y) ^^^ (x &&& z) ^^^ (y &&& z) ∧
    ∀ i, i < 32 →
      (ch x y z).getLsbD i = (if x.getLsbD i then y.getLsbD i else z.getLsbD i) ∧
      (maj x y z).getLsbD i = decide (2 ≤ (x.getLsbD i).toNat + (y.getLsbD i).toNat + (z.getLsbD i).toNat)

/-- R8, R96 to R99: the four sigma functions bit by bit: bit `i` of a rotation right by `n` is bit `i + n` modulo 32, of
a shift right bit `i + n`, 0 beyond bit 31. -/
def Obligations.SigmasBitByBit : Prop :=
  ∀ (x : Word) (i : Nat), i < 32 →
    let r := fun n => x.getLsbD ((i + n) % 32)
    (bsig0 x).getLsbD i = (r 2 ^^ r 13 ^^ r 22) ∧
    (bsig1 x).getLsbD i = (r 6 ^^ r 11 ^^ r 25) ∧
    (ssig0 x).getLsbD i = (r 7 ^^ r 18 ^^ x.getLsbD (i + 3)) ∧
    (ssig1 x).getLsbD i = (r 17 ^^ r 19 ^^ x.getLsbD (i + 10))

/-! ## Byte order (spec/20_memory.md) -/

/-- R40, R41: the big-endian 32-bit load from `BUF` and the big-endian 64-bit store at 56, which leaves every other byte
of `BUF` alone. -/
def Obligations.BufferIsBigEndian : Prop :=
  ∀ s : State,
    (∀ i, i < 16 → (memRead4 s (4 * i)).toNat = (bufByte s (4 * i)).toNat * 2 ^ 24 +
      (bufByte s (4 * i + 1)).toNat * 2 ^ 16 + (bufByte s (4 * i + 2)).toNat * 2 ^ 8 +
      (bufByte s (4 * i + 3)).toNat) ∧
    ∀ b : BitVec 64,
      (∀ k, k < 8 → bufByte (memWrite8 s 56 b) (56 + k) = b.extractLsb' (56 - 8 * k) 8) ∧
      ∀ a, a < 56 ∨ 64 ≤ a → bufByte (memWrite8 s 56 b) a = bufByte s a

/-- The second half of R44 (the first is the load of `BufferIsBigEndian` and the schedule of
`ScheduleFollowsTheRecurrence`): `COMPRESS` sees the 8-byte write at 56 as `W[14] = B[63:32]` and `W[15] = B[31:0]`. -/
def Obligations.LengthFieldIsTheLastTwoWords : Prop :=
  ∀ (s : State) (b : BitVec 64),
    (schedule (bufBlock (memWrite8 s 56 b))).getD 14 0 = b.extractLsb' 32 32 ∧
    (schedule (bufBlock (memWrite8 s 56 b))).getD 15 0 = b.extractLsb' 0 32

/-! ## `FINALIZE` (spec/43_finalize.md) -/

/-- R111, R112, R113, R114, R116 (and R110): what `FINALIZE` does in phase `ACTIVE`, for every fill count: pad into one
block if `NBUF <= 55` and into two otherwise, compress, and write the eight words big-endian to `OUT`. -/
def Obligations.FinalizeWritesTheDigest : Prop :=
  ∀ s : State, s.err = false → s.phase = .active →
    ∃ t, exec .finalize s = .next t ∧
      (∀ (i : Fin 8) (k : Nat), k < 4 →
        outByte t (4 * i.val + k) = (finalWords s)[i].extractLsb' (24 - 8 * k) 8) ∧
      t.phase = .consumed ∧ t.err = false ∧ t.cause = s.cause

/-- R10, R32, R117. The form of the free values is the model's choice (notes/assumptions/1.md), so this is no rule of the
spec: after `FINALIZE` in `ACTIVE`, `H`, `BUF`, `NBUF`, `LEN` are the free values of the next event, which nothing in
the state before determines. -/
def Obligations.FinalizeLeavesFreeValues : Prop :=
  ∀ s : State, s.err = false → s.phase = .active →
    ∃ t, exec .finalize s = .next t ∧ t.draws = s.draws + 1 ∧
      (∀ i : Fin 8, t.h[i] = Config.unspecH (s.draws + 1) i.val) ∧
      (∀ a, bufByte t a = Config.unspecBuf (s.draws + 1) a) ∧
      t.nbuf = Config.unspecNbuf (s.draws + 1) ∧ t.len = Config.unspecLen (s.draws + 1)

/-- R118, whole: `FINALIZE` outside `ACTIVE` raises the fault of the phase and changes nothing else, `OUT` included; a
halted engine ignores it. -/
def Obligations.FinalizeOutsideActive : Prop :=
  ∀ s : State,
    (s.err = false → s.phase = .uninit →
      exec .finalize s = .next { s with err := true, cause := some .notInitialized }) ∧
    (s.err = false → s.phase = .consumed →
      exec .finalize s = .next { s with err := true, cause := some .consumed }) ∧
    (s.err = true → exec .finalize s = .next s)

/-- Frame of `FINALIZE` (R110, R116, R118) in every state: the port is unchanged; in phase `ACTIVE` `ERR` and `CAUSE` are
unchanged and `OUT` gets no byte but its 32; otherwise everything but `ERR` and `CAUSE` is unchanged. -/
def Obligations.FinalizeFrame : Prop :=
  ∀ s t : State, exec .finalize s = .next t →
    t.port = s.port ∧
    (s.err = false → s.phase = .active → t.err = s.err ∧ t.cause = s.cause ∧
      ∀ a, 32 ≤ a → t.out.byte? a = s.out.byte? a) ∧
    (s.err = true ∨ s.phase ≠ .active →
      { t with err := s.err, cause := s.cause } = s ∧ (∀ a, bufByte t a = bufByte s a) ∧
        ∀ a, outByte t a = outByte s a)

/-- R119, R115: the padded message has the least length that is a multiple of 64 and at least `n + 9`, and its number of
blocks, which is the number of compressions of the whole message. -/
def Obligations.PaddedMessageLength : Prop :=
  ∀ m : List Byte, m.length < 2 ^ 61 →
    let n := m.length
    let p := (paddedMessage m).length
    p % 64 = 0 ∧ n + 9 ≤ p ∧ (∀ q, q % 64 = 0 → n + 9 ≤ q → p ≤ q) ∧
    p / 64 = (if n % 64 ≤ 55 then n / 64 + 1 else n / 64 + 2) ∧ p / 64 = (n + 8) / 64 + 1

/-- R120 (and R70 for `HASH`): after `INIT`, the bytes of `M` in any chunking, and `FINALIZE`, from any engine with `ERR = 0`, `OUT` is
`SHA256(M)`, for every message of fewer than 2^61 bytes; in particular after `HASH M`. -/
def Obligations.DigestIsSha256 : Prop :=
  ∀ (m : List Byte) (s : State), m.length < 2 ^ 61 → s.err = false →
    (∀ chunks : List (List Byte), chunks.flatten = m →
      ∃ t, execAll (.init :: (chunks.flatMap assembleWrite ++ [.finalize])) s = .next t ∧
        outBytes t = sha256 m ∧ t.phase = .consumed ∧ t.err = false) ∧
    ∃ t, execAll (assembleHash m) s = .next t ∧ outBytes t = sha256 m

/-- R122: the digest depends on the message only, not on the state before `INIT` nor on the chunking, whatever the
length of the message. -/
def Obligations.DigestDependsOnTheMessageOnly : Prop :=
  ∀ (chunks chunks' : List (List Byte)) (s s' : State), chunks.flatten = chunks'.flatten →
    s.err = false → s'.err = false →
    ∃ t t', execAll (.init :: (chunks.flatMap assembleWrite ++ [.finalize])) s = .next t ∧
      execAll (.init :: (chunks'.flatMap assembleWrite ++ [.finalize])) s' = .next t' ∧
      outBytes t = outBytes t'

/-- R29, R33: no instruction reads `UNSPEC`. Two states that agree on everything the spec defines in them are taken to
two such states by every instruction. -/
def Obligations.NothingUnspecifiedIsRead : Prop :=
  ∀ (i : Instr) (s s' : State), s.SameDefined s' →
    ∃ t t', exec i s = .next t ∧ exec i s' = .next t' ∧ t.SameDefined t'

/-- R18, R123: only a successful `FINALIZE` and the reset change `OUT`; every other token, every fault and every step of
a halted engine leave all of it. -/
def Obligations.DigestPersists : Prop :=
  ∀ (i : Instr) (s : State), ¬ (i = .finalize ∧ s.phase = .active ∧ s.err = false) →
    ∃ t, exec i s = .next t ∧ (∀ a, outByte t a = outByte s a) ∧ digestPort t = digestPort s

/-! ## Status, ports and reset (spec/10_state.md, spec/30_encoding.md, spec/70_reset_and_hazards.md) -/

/-- R23, R24, R25, R126: the bits of `STATUS` in every state, and `CAUSE` 0 while `ERR = 0` under the invariant. -/
def Obligations.StatusLayout : Prop :=
  ∀ s : State,
    (status s).extractLsb' 0 2 = (match s.phase with
      | .uninit => 0#2
      | .active => 1#2
      | .consumed => 2#2) ∧
    (status s).getLsbD 2 = s.err ∧
    (status s).extractLsb' 3 2 = (match s.cause with
      | none => 0#2
      | some .illegalCommand => 1#2
      | some .notInitialized => 2#2
      | some .consumed => 3#2) ∧
    (status s).extractLsb' 5 3 = 0#3 ∧
    (s.Inv → s.err = false → (status s).extractLsb' 3 2 = 0#2)

/-- R72: the `digest` port carries `OUT[k]` in bits 255-8k : 248-8k, `OUT[0]` most significant; `status` carries `STATUS`. -/
def Obligations.DigestPortLayout : Prop :=
  ∀ s : State, (∀ k, k < 32 → (digestPort s).extractLsb' (248 - 8 * k) 8 = outByte s k) ∧
    statusPort s = status s

/-- R31, R145. That the registers the spec calls `UNSPEC` hold the free values of one event is the model's choice
(notes/assumptions/2.md), and so are the counter of events (1.md), the list `port` (4.md) and that a reset keeps it
(6.md), so this is no rule of the spec. After a hardware reset of any engine `STATUS` is 0x00, the data
registers hold free values of an event of their own, and the tokens the host presents are not accepted. The state
right after power-on has `STATUS` 0x00 and no token presented. -/
def Obligations.ResetState : Prop :=
  status State.reset = 0x00 ∧ State.reset.port = [] ∧
  ∀ s : State,
    status (assertReset s) = 0x00 ∧ (assertReset s).port = s.port ∧
    (assertReset s).draws = s.draws + 1 ∧
    (∀ i : Fin 8, (assertReset s).h[i] = Config.unspecH (s.draws + 1) i.val) ∧
    (∀ a, bufByte (assertReset s) a = Config.unspecBuf (s.draws + 1) a) ∧
    (∀ a, outByte (assertReset s) a = Config.unspecOut (s.draws + 1) a) ∧
    (assertReset s).nbuf = Config.unspecNbuf (s.draws + 1) ∧
    (assertReset s).len = Config.unspecLen (s.draws + 1)
end

