-- ==== Sys2Proof/Laws/State.lean ====
section
/-!
SUPPORT. What each update of the state leaves in each field: one lemma a field and update, true by `rfl`, so
that no proof unfolds a record update.
-/

namespace Sys2Proof.Machine

@[simp] theorem raise_h (x : EngineFault) (s : State) : (raise x s).h = s.h := rfl
@[simp] theorem raise_buf (x : EngineFault) (s : State) : (raise x s).buf = s.buf := rfl
@[simp] theorem raise_nbuf (x : EngineFault) (s : State) : (raise x s).nbuf = s.nbuf := rfl
@[simp] theorem raise_len (x : EngineFault) (s : State) : (raise x s).len = s.len := rfl
@[simp] theorem raise_out (x : EngineFault) (s : State) : (raise x s).out = s.out := rfl
@[simp] theorem raise_phase (x : EngineFault) (s : State) : (raise x s).phase = s.phase := rfl
@[simp] theorem raise_err (x : EngineFault) (s : State) : (raise x s).err = true := rfl
@[simp] theorem raise_cause (x : EngineFault) (s : State) : (raise x s).cause = some x := rfl
@[simp] theorem raise_draws (x : EngineFault) (s : State) : (raise x s).draws = s.draws := rfl
@[simp] theorem raise_port (x : EngineFault) (s : State) : (raise x s).port = s.port := rfl

@[simp] theorem memWrite1_h (s : State) (a : Nat) (v : Byte) : (memWrite1 s a v).h = s.h := rfl
@[simp] theorem memWrite1_buf (s : State) (a : Nat) (v : Byte) : (memWrite1 s a v).buf = s.buf.write a v := rfl
@[simp] theorem memWrite1_nbuf (s : State) (a : Nat) (v : Byte) : (memWrite1 s a v).nbuf = s.nbuf := rfl
@[simp] theorem memWrite1_len (s : State) (a : Nat) (v : Byte) : (memWrite1 s a v).len = s.len := rfl
@[simp] theorem memWrite1_out (s : State) (a : Nat) (v : Byte) : (memWrite1 s a v).out = s.out := rfl
@[simp] theorem memWrite1_phase (s : State) (a : Nat) (v : Byte) : (memWrite1 s a v).phase = s.phase := rfl
@[simp] theorem memWrite1_err (s : State) (a : Nat) (v : Byte) : (memWrite1 s a v).err = s.err := rfl
@[simp] theorem memWrite1_cause (s : State) (a : Nat) (v : Byte) : (memWrite1 s a v).cause = s.cause := rfl
@[simp] theorem memWrite1_draws (s : State) (a : Nat) (v : Byte) : (memWrite1 s a v).draws = s.draws := rfl
@[simp] theorem memWrite1_port (s : State) (a : Nat) (v : Byte) : (memWrite1 s a v).port = s.port := rfl

@[simp] theorem memWrite8_h (s : State) (a : Nat) (v : BitVec 64) : (memWrite8 s a v).h = s.h := rfl
@[simp] theorem memWrite8_buf (s : State) (a : Nat) (v : BitVec 64) : (memWrite8 s a v).buf = s.buf.writeBytes a (bytes64 v) := rfl
@[simp] theorem memWrite8_nbuf (s : State) (a : Nat) (v : BitVec 64) : (memWrite8 s a v).nbuf = s.nbuf := rfl
@[simp] theorem memWrite8_len (s : State) (a : Nat) (v : BitVec 64) : (memWrite8 s a v).len = s.len := rfl
@[simp] theorem memWrite8_out (s : State) (a : Nat) (v : BitVec 64) : (memWrite8 s a v).out = s.out := rfl
@[simp] theorem memWrite8_phase (s : State) (a : Nat) (v : BitVec 64) : (memWrite8 s a v).phase = s.phase := rfl
@[simp] theorem memWrite8_err (s : State) (a : Nat) (v : BitVec 64) : (memWrite8 s a v).err = s.err := rfl
@[simp] theorem memWrite8_cause (s : State) (a : Nat) (v : BitVec 64) : (memWrite8 s a v).cause = s.cause := rfl
@[simp] theorem memWrite8_draws (s : State) (a : Nat) (v : BitVec 64) : (memWrite8 s a v).draws = s.draws := rfl
@[simp] theorem memWrite8_port (s : State) (a : Nat) (v : BitVec 64) : (memWrite8 s a v).port = s.port := rfl

@[simp] theorem zeroFill_h (s : State) (a n : Nat) : (zeroFill s a n).h = s.h := rfl
@[simp] theorem zeroFill_buf (s : State) (a n : Nat) : (zeroFill s a n).buf = s.buf.writeBytes a (List.replicate n 0x00#8) := rfl
@[simp] theorem zeroFill_nbuf (s : State) (a n : Nat) : (zeroFill s a n).nbuf = s.nbuf := rfl
@[simp] theorem zeroFill_len (s : State) (a n : Nat) : (zeroFill s a n).len = s.len := rfl
@[simp] theorem zeroFill_out (s : State) (a n : Nat) : (zeroFill s a n).out = s.out := rfl
@[simp] theorem zeroFill_phase (s : State) (a n : Nat) : (zeroFill s a n).phase = s.phase := rfl
@[simp] theorem zeroFill_err (s : State) (a n : Nat) : (zeroFill s a n).err = s.err := rfl
@[simp] theorem zeroFill_cause (s : State) (a n : Nat) : (zeroFill s a n).cause = s.cause := rfl
@[simp] theorem zeroFill_draws (s : State) (a n : Nat) : (zeroFill s a n).draws = s.draws := rfl
@[simp] theorem zeroFill_port (s : State) (a n : Nat) : (zeroFill s a n).port = s.port := rfl

@[simp] theorem forget_h (s : State) : (forget s).h = unspecWords (s.draws + 1) := rfl
@[simp] theorem forget_buf (s : State) : (forget s).buf = [] := rfl
@[simp] theorem forget_nbuf (s : State) : (forget s).nbuf = Config.unspecNbuf (s.draws + 1) := rfl
@[simp] theorem forget_len (s : State) : (forget s).len = Config.unspecLen (s.draws + 1) := rfl
@[simp] theorem forget_out (s : State) : (forget s).out = s.out := rfl
@[simp] theorem forget_phase (s : State) : (forget s).phase = s.phase := rfl
@[simp] theorem forget_err (s : State) : (forget s).err = s.err := rfl
@[simp] theorem forget_cause (s : State) : (forget s).cause = s.cause := rfl
@[simp] theorem forget_draws (s : State) : (forget s).draws = s.draws + 1 := rfl
@[simp] theorem forget_port (s : State) : (forget s).port = s.port := rfl

@[simp] theorem compressBuf_h (s : State) : (compressBuf s).h = compress s.h (bufBlock s) := rfl
@[simp] theorem compressBuf_buf (s : State) : (compressBuf s).buf = s.buf := rfl
@[simp] theorem compressBuf_nbuf (s : State) : (compressBuf s).nbuf = s.nbuf := rfl
@[simp] theorem compressBuf_len (s : State) : (compressBuf s).len = s.len := rfl
@[simp] theorem compressBuf_out (s : State) : (compressBuf s).out = s.out := rfl
@[simp] theorem compressBuf_phase (s : State) : (compressBuf s).phase = s.phase := rfl
@[simp] theorem compressBuf_err (s : State) : (compressBuf s).err = s.err := rfl
@[simp] theorem compressBuf_cause (s : State) : (compressBuf s).cause = s.cause := rfl
@[simp] theorem compressBuf_draws (s : State) : (compressBuf s).draws = s.draws := rfl
@[simp] theorem compressBuf_port (s : State) : (compressBuf s).port = s.port := rfl

@[simp] theorem startMessage_h (s : State) : (startMessage s).h = iv := rfl
@[simp] theorem startMessage_buf (s : State) : (startMessage s).buf = s.buf := rfl
@[simp] theorem startMessage_nbuf (s : State) : (startMessage s).nbuf = 0 := rfl
@[simp] theorem startMessage_len (s : State) : (startMessage s).len = 0 := rfl
@[simp] theorem startMessage_out (s : State) : (startMessage s).out = s.out := rfl
@[simp] theorem startMessage_phase (s : State) : (startMessage s).phase = .active := rfl
@[simp] theorem startMessage_err (s : State) : (startMessage s).err = s.err := rfl
@[simp] theorem startMessage_cause (s : State) : (startMessage s).cause = s.cause := rfl
@[simp] theorem startMessage_draws (s : State) : (startMessage s).draws = s.draws := rfl
@[simp] theorem startMessage_port (s : State) : (startMessage s).port = s.port := rfl

@[simp] theorem storeByte_h (d : Byte) (s : State) : (storeByte d s).h = s.h := rfl
@[simp] theorem storeByte_buf (d : Byte) (s : State) : (storeByte d s).buf = s.buf.write s.nbuf.val d := rfl
@[simp] theorem storeByte_nbuf (d : Byte) (s : State) : (storeByte d s).nbuf = s.nbuf := rfl
@[simp] theorem storeByte_len (d : Byte) (s : State) : (storeByte d s).len = add64 s.len 1 := rfl
@[simp] theorem storeByte_out (d : Byte) (s : State) : (storeByte d s).out = s.out := rfl
@[simp] theorem storeByte_phase (d : Byte) (s : State) : (storeByte d s).phase = s.phase := rfl
@[simp] theorem storeByte_err (d : Byte) (s : State) : (storeByte d s).err = s.err := rfl
@[simp] theorem storeByte_cause (d : Byte) (s : State) : (storeByte d s).cause = s.cause := rfl
@[simp] theorem storeByte_draws (d : Byte) (s : State) : (storeByte d s).draws = s.draws := rfl
@[simp] theorem storeByte_port (d : Byte) (s : State) : (storeByte d s).port = s.port := rfl

@[simp] theorem serialize_h (s : State) : (serialize s).h = s.h := rfl
@[simp] theorem serialize_buf (s : State) : (serialize s).buf = s.buf := rfl
@[simp] theorem serialize_nbuf (s : State) : (serialize s).nbuf = s.nbuf := rfl
@[simp] theorem serialize_len (s : State) : (serialize s).len = s.len := rfl
@[simp] theorem serialize_out (s : State) : (serialize s).out = s.out.writeBytes 0 (bytesOfWords s.h) := rfl
@[simp] theorem serialize_phase (s : State) : (serialize s).phase = s.phase := rfl
@[simp] theorem serialize_err (s : State) : (serialize s).err = s.err := rfl
@[simp] theorem serialize_cause (s : State) : (serialize s).cause = s.cause := rfl
@[simp] theorem serialize_draws (s : State) : (serialize s).draws = s.draws := rfl
@[simp] theorem serialize_port (s : State) : (serialize s).port = s.port := rfl

@[simp] theorem afterReset_phase (n : Nat) (p : List Token) : (State.afterReset n p).phase = .uninit := rfl
@[simp] theorem afterReset_err (n : Nat) (p : List Token) : (State.afterReset n p).err = false := rfl
@[simp] theorem afterReset_cause (n : Nat) (p : List Token) : (State.afterReset n p).cause = none := rfl
@[simp] theorem afterReset_buf (n : Nat) (p : List Token) : (State.afterReset n p).buf = [] := rfl
@[simp] theorem afterReset_out (n : Nat) (p : List Token) : (State.afterReset n p).out = [] := rfl
@[simp] theorem afterReset_draws (n : Nat) (p : List Token) : (State.afterReset n p).draws = n := rfl
@[simp] theorem afterReset_port (n : Nat) (p : List Token) : (State.afterReset n p).port = p := rfl

end Sys2Proof.Machine
end

