-- ==== Sys2Proof/Laws/Memory.lean ====
section
/-!
SUPPORT. The laws of the byte memories: a read after a write, the canonical form kept by every write, and that
equal contents are equal data.
-/

namespace Sys2Proof.Machine

@[simp] theorem byte?_nil (a : Nat) : Memory.byte? [] a = none := rfl

theorem byte?_append (m m' : Memory) (x : Nat) :
    Memory.byte? (m ++ m') x = (m.byte? x).or (m'.byte? x) := by
  induction m with
  | nil => simp
  | cons c m ih =>
    simp only [List.cons_append, Memory.byte?, ih]
    split <;> simp

theorem byte?_filter (p : Nat → Bool) (m : Memory) (x : Nat) :
    Memory.byte? (m.filter fun c => p c.1) x = if p x then m.byte? x else none := by
  induction m with
  | nil => simp
  | cons c m ih =>
    by_cases hx : x = c.1
    · subst hx
      by_cases hp : p c.1 = true
      · simp [hp, Memory.byte?]
      · simp [hp, ih]
    · by_cases hp : p c.1 = true
      · simp [hp, Memory.byte?, hx, ih]
      · simp [hp, Memory.byte?, hx, ih]

theorem byte?_cellsFrom (a x : Nat) (vs : List Byte) :
    (cellsFrom a vs).byte? x = if a ≤ x ∧ x < a + vs.length then vs[x - a]? else none := by
  induction vs generalizing a with
  | nil => simp [cellsFrom]
  | cons v vs ih =>
    simp only [cellsFrom, Memory.byte?, ih, List.length_cons]
    by_cases hx : x = a
    · subst hx; rw [if_pos rfl, if_pos (by omega)]; simp
    · rw [if_neg hx]
      by_cases h : a + 1 ≤ x ∧ x < a + 1 + vs.length
      · rw [if_pos h, if_pos (by omega)]
        obtain ⟨k, rfl⟩ : ∃ k, x = a + 1 + k := ⟨x - (a + 1), by omega⟩
        rw [show a + 1 + k - a = k + 1 by omega, Nat.add_sub_cancel_left]
        simp
      · rw [if_neg h, if_neg (by omega)]

/-- What a write of bytes does to every address. -/
theorem byte?_writeBytes (m : Memory) (a x : Nat) (vs : List Byte) :
    (m.writeBytes a vs).byte? x = if a ≤ x ∧ x < a + vs.length then vs[x - a]? else m.byte? x := by
  simp only [Memory.writeBytes, byte?_append, byte?_cellsFrom,
    byte?_filter (fun y => decide (y < a)) m x, byte?_filter (fun y => decide (a + vs.length ≤ y)) m x]
  by_cases h : a ≤ x ∧ x < a + vs.length
  · have : vs[x - a]? = some vs[x - a] := List.getElem?_eq_getElem (by omega)
    rw [if_neg (by simp; omega), if_pos h, if_pos h, this]
    rfl
  · rw [if_neg h, if_neg h]
    by_cases hx : x < a
    · rw [if_pos (by simpa using hx), if_neg (by simp; omega)]
      simp
    · rw [if_neg (by simpa using hx), if_pos (by simp; omega)]
      simp

theorem byte?_writeBytes_other (m : Memory) {a x : Nat} (vs : List Byte) (h : x < a ∨ a + vs.length ≤ x) :
    (m.writeBytes a vs).byte? x = m.byte? x := by
  rw [byte?_writeBytes, if_neg]; omega

/-- What a write of one byte does to every address. -/
theorem byte?_write (m : Memory) (a x : Nat) (v : Byte) :
    (m.write a v).byte? x = if x = a then some v else m.byte? x := by
  rw [Memory.write, byte?_writeBytes]
  by_cases h : x = a
  · subst h; rw [if_pos (by simp), if_pos rfl]; simp
  · rw [if_neg (by simp; omega), if_neg h]

@[simp] theorem byte?_write_same (m : Memory) (a : Nat) (v : Byte) : (m.write a v).byte? a = some v := by
  simp [byte?_write]

theorem byte?_write_other (m : Memory) {a x : Nat} (v : Byte) (h : x ≠ a) :
    (m.write a v).byte? x = m.byte? x := by
  simp [byte?_write, h]

/-! ## The canonical form -/

@[simp] theorem wf_nil (n : Nat) : Memory.wf n [] = true := rfl

theorem wf_cons {n : Nat} {c : Host.Cell} {m : Memory} :
    Memory.wf n (c :: m) = true ↔ c.1 < n ∧ (∀ c' ∈ m, c.1 < c'.1) ∧ Memory.wf n m = true := by
  simp [Memory.wf, and_assoc]

/-- The canonical form as a fact about the whole list. -/
theorem wf_iff {n : Nat} {m : Memory} :
    Memory.wf n m = true ↔ (∀ c ∈ m, c.1 < n) ∧ m.Pairwise fun c c' => c.1 < c'.1 := by
  induction m with
  | nil => simp
  | cons c m ih =>
    rw [wf_cons, ih, List.forall_mem_cons, List.pairwise_cons]
    tauto

theorem mem_cellsFrom {a : Nat} {vs : List Byte} {c : Host.Cell} (h : c ∈ cellsFrom a vs) :
    a ≤ c.1 ∧ c.1 < a + vs.length := by
  induction vs generalizing a with
  | nil => simp [cellsFrom] at h
  | cons v vs ih =>
    rcases List.mem_cons.1 h with rfl | h
    · simp
    · have := ih h
      simp only [List.length_cons]
      omega

theorem pairwise_cellsFrom (a : Nat) (vs : List Byte) :
    (cellsFrom a vs).Pairwise fun c c' => c.1 < c'.1 := by
  induction vs generalizing a with
  | nil => exact .nil
  | cons v vs ih =>
    refine List.pairwise_cons.2 ⟨fun c hc => ?_, ih (a + 1)⟩
    have := mem_cellsFrom hc
    show a < c.1
    omega

/-- A write within the memory's size keeps the canonical form. -/
theorem wf_writeBytes {n : Nat} {m : Memory} (a : Nat) (vs : List Byte) (ha : a + vs.length ≤ n)
    (h : Memory.wf n m = true) : Memory.wf n (m.writeBytes a vs) = true := by
  obtain ⟨hlt, hp⟩ := wf_iff.1 h
  refine wf_iff.2 ⟨fun c hc => ?_, ?_⟩
  · simp only [Memory.writeBytes, List.mem_append, List.mem_filter] at hc
    rcases hc with ⟨hc, -⟩ | hc | ⟨hc, -⟩
    · exact hlt c hc
    · have := mem_cellsFrom hc
      omega
    · exact hlt c hc
  · refine List.pairwise_append.2 ⟨hp.filter _, List.pairwise_append.2 ⟨pairwise_cellsFrom a vs, hp.filter _, ?_⟩, ?_⟩
    · intro c hc c' hc'
      have := mem_cellsFrom hc
      have := (List.mem_filter.1 hc').2
      simp only [decide_eq_true_eq] at this
      omega
    · intro c hc c' hc'
      have h1 := (List.mem_filter.1 hc).2
      simp only [decide_eq_true_eq] at h1
      rcases List.mem_append.1 hc' with hc' | hc'
      · have := mem_cellsFrom hc'
        omega
      · have h2 := (List.mem_filter.1 hc').2
        simp only [decide_eq_true_eq] at h2
        omega

theorem wf_write {n : Nat} {m : Memory} (a : Nat) (v : Byte) (ha : a < n) (h : Memory.wf n m = true) :
    Memory.wf n (m.write a v) = true :=
  wf_writeBytes a [v] (by simpa using ha) h

theorem byte?_eq_none {m : Memory} {a : Nat} (h : ∀ c ∈ m, a < c.1) : m.byte? a = none := by
  induction m with
  | nil => rfl
  | cons c m ih =>
    obtain ⟨hc, hm⟩ := List.forall_mem_cons.1 h
    rw [Memory.byte?, if_neg (by omega), ih hm]

/-- Nothing is listed at or below the first cell's address in the rest of a memory in canonical form. -/
theorem byte?_eq_none_of_le {n : Nat} {c : Host.Cell} {m : Memory} (h : Memory.wf n (c :: m) = true) {a : Nat}
    (ha : a ≤ c.1) : Memory.byte? m a = none :=
  byte?_eq_none fun c' hc' => Nat.lt_of_le_of_lt ha ((wf_cons.1 h).2.1 c' hc')

/-- Equal contents are equal data: a memory in canonical form is determined by the bytes it lists. -/
theorem memory_ext {n : Nat} {m m' : Memory} (h : Memory.wf n m = true) (h' : Memory.wf n m' = true)
    (e : ∀ a, m.byte? a = m'.byte? a) : m = m' := by
  induction m generalizing m' with
  | nil =>
    cases m' with
    | nil => rfl
    | cons d m' => simpa [Memory.byte?] using e d.1
  | cons c m ih =>
    cases m' with
    | nil => simpa [Memory.byte?] using e c.1
    | cons d m' =>
      obtain ⟨hc, hlt, hm⟩ := wf_cons.1 h
      obtain ⟨hd, hlt', hm'⟩ := wf_cons.1 h'
      have hcd : c.1 = d.1 := by
        rcases Nat.lt_trichotomy c.1 d.1 with hl | hl | hl
        · have := e c.1
          rw [Memory.byte?, if_pos rfl, Memory.byte?, if_neg (by omega),
            byte?_eq_none_of_le h' (by omega)] at this
          cases this
        · exact hl
        · have := e d.1
          rw [Memory.byte?, if_neg (by omega), byte?_eq_none_of_le h (by omega),
            Memory.byte?, if_pos rfl] at this
          cases this
      have hv : c.2 = d.2 := by
        have := e c.1
        rw [Memory.byte?, if_pos rfl, Memory.byte?, if_pos hcd] at this
        exact Option.some.inj this
      have hm_eq : m = m' := by
        refine ih hm hm' fun a => ?_
        by_cases ha : a = c.1
        · rw [byte?_eq_none_of_le h (by omega), byte?_eq_none_of_le h' (by omega)]
        · have := e a
          rwa [Memory.byte?, if_neg ha, Memory.byte?, if_neg (hcd ▸ ha)] at this
      rw [hm_eq, Prod.ext hcd hv]

/-- An address beyond a memory's size lists nothing. -/
theorem byte?_outside {n : Nat} {m : Memory} (h : Memory.wf n m = true) {a : Nat} (ha : n ≤ a) :
    m.byte? a = none := by
  induction m with
  | nil => rfl
  | cons c m ih =>
    obtain ⟨hc, _, hm⟩ := wf_cons.1 h
    rw [Memory.byte?, if_neg (by omega), ih hm]

end Sys2Proof.Machine
end

