-- ==== Sys2Proof/Laws/Ops.lean ====
section
/-!
SUPPORT. One lemma for each shared operation that says everything it can do: the byte writes of `BUF` and `OUT`, the
checks before a command, and every arm of `exec` (what a step can do, said once).
-/

namespace Sys2Proof.Machine

/-! ## Writes of `BUF` and `OUT` seen byte by byte -/

theorem bufByte_memWrite1 (s : State) (a x : Nat) (v : Byte) :
    bufByte (memWrite1 s a v) x = if x = a then v else bufByte s x := by
  simp only [bufByte, memWrite1_buf, memWrite1_draws, byte?_write]
  split <;> rfl

theorem getD_byte?_writeBytes (m : Memory) (a x : Nat) (vs : List Byte) (free : Byte) :
    ((m.writeBytes a vs).byte? x).getD free =
      if a ≤ x ∧ x < a + vs.length then vs.getD (x - a) 0 else (m.byte? x).getD free := by
  rw [byte?_writeBytes]
  split
  · rw [List.getElem?_eq_getElem (by omega), List.getD_eq_getElem?_getD, List.getElem?_eq_getElem (by omega)]
    rfl
  · rfl

theorem bufByte_memWrite8 (s : State) (a x : Nat) (v : BitVec 64) :
    bufByte (memWrite8 s a v) x = if a ≤ x ∧ x < a + 8 then (bytes64 v).getD (x - a) 0 else bufByte s x :=
  getD_byte?_writeBytes s.buf a x (bytes64 v) _

theorem bufByte_zeroFill (s : State) (a n x : Nat) :
    bufByte (zeroFill s a n) x = if a ≤ x ∧ x < a + n then 0 else bufByte s x := by
  have h := getD_byte?_writeBytes s.buf a x (List.replicate n 0x00#8) (Config.unspecBuf s.draws x)
  rw [List.length_replicate] at h
  refine h.trans ?_
  split
  · rename_i hx
    rw [List.getD_eq_getElem?_getD, List.getElem?_replicate, if_pos (by omega)]
    rfl
  · rfl

theorem bufByte_congr {s t : State} (hb : s.buf = t.buf) (hd : s.draws = t.draws) (a : Nat) :
    bufByte s a = bufByte t a := by
  simp only [bufByte, hb, hd]

theorem outByte_congr {s t : State} (ho : s.out = t.out) (hd : s.draws = t.draws) (a : Nat) :
    outByte s a = outByte t a := by
  simp only [outByte, ho, hd]

/-- The value byte `k` of a big-endian 64-bit value has (R41). -/
theorem bytes64_getD (v : BitVec 64) {k : Nat} (hk : k < 8) :
    (bytes64 v).getD k 0 = v.extractLsb' (56 - 8 * k) 8 := by
  obtain rfl | rfl | rfl | rfl | rfl | rfl | rfl | rfl : k = 0 ∨ k = 1 ∨ k = 2 ∨ k = 3 ∨ k = 4 ∨ k = 5 ∨ k = 6 ∨ k = 7 := by
    omega
  all_goals rfl

@[simp] theorem length_bytes32 (v : Word) : (bytes32 v).length = 4 := rfl

@[simp] theorem length_bytesOfWords (w : Words8) : (bytesOfWords w).length = 32 := rfl

/-- The byte of `H[i]` at its place `k` in the digest (R42). -/
theorem bytesOfWords_getD (w : Words8) (i : Fin 8) {k : Nat} (hk : k < 4) :
    (bytesOfWords w).getD (4 * i.val + k) 0 = w[i].extractLsb' (24 - 8 * k) 8 := by
  obtain rfl | rfl | rfl | rfl : k = 0 ∨ k = 1 ∨ k = 2 ∨ k = 3 := by omega
  all_goals
    obtain ⟨i, hi⟩ := i
    obtain rfl | rfl | rfl | rfl | rfl | rfl | rfl | rfl : i = 0 ∨ i = 1 ∨ i = 2 ∨ i = 3 ∨ i = 4 ∨ i = 5 ∨ i = 6 ∨ i = 7 := by
      omega
    all_goals rfl

/-- `SERIALIZE` leaves in `OUT` the bytes of `H` (R116). -/
theorem outByte_serialize (s : State) (x : Nat) :
    outByte (serialize s) x = if x < 32 then (bytesOfWords s.h).getD x 0 else outByte s x := by
  have h := getD_byte?_writeBytes s.out 0 x (bytesOfWords s.h) (Config.unspecOut s.draws x)
  simpa [outByte] using h

/-! ## What a step can do -/

/-- The effect of a token on an engine that is not halted. -/
def effect : Instr → State → State
  | .init => startMessage
  | .wbyte d => whenActive (appendByte d)
  | .finalize => whenActive finishMessage
  | _ => raise .illegalCommand

/-- Every token has exactly one next state: the state itself when the engine is halted, else its effect. -/
theorem exec_eq (i : Instr) (s : State) : exec i s = .next (if s.err then s else effect i s) := by
  cases i <;> rfl

theorem exec_halted {s : State} (h : s.err = true) (i : Instr) : exec i s = .next s := by
  rw [exec_eq, if_pos h]

theorem exec_running {s : State} (h : s.err = false) (i : Instr) : exec i s = .next (effect i s) := by
  rw [exec_eq, if_neg (by simp [h])]

theorem effect_reserved {i : Instr} (h : i.isReserved = true) : effect i = raise .illegalCommand := by
  cases i <;> first | rfl | cases h

theorem whenActive_active {f : State → State} {s : State} (h : s.phase = .active) : whenActive f s = f s := by
  simp only [whenActive, h]

theorem whenActive_uninit {f : State → State} {s : State} (h : s.phase = .uninit) :
    whenActive f s = raise .notInitialized s := by
  simp only [whenActive, h]

theorem whenActive_consumed {f : State → State} {s : State} (h : s.phase = .consumed) :
    whenActive f s = raise .consumed s := by
  simp only [whenActive, h]

/-- What a token can do to an engine that is not halted: raise one fault (a reserved token, or a command other than
`INIT` outside `ACTIVE`), start a message, append a byte or finish the message. -/
theorem effect_cases (i : Instr) (s : State) :
    (∃ x, effect i s = raise x s ∧ i ≠ .init ∧ (i.isReserved = true ∨ s.phase ≠ .active)) ∨
      (i = .init ∧ effect i s = startMessage s) ∨
      (∃ d, i = .wbyte d ∧ s.phase = .active ∧ effect i s = appendByte d s) ∨
      (i = .finalize ∧ s.phase = .active ∧ effect i s = finishMessage s) := by
  cases i with
  | init => exact .inr (.inl ⟨rfl, rfl⟩)
  | wbyte d =>
    cases h : s.phase with
    | uninit => exact .inl ⟨_, whenActive_uninit h, by simp, .inr (by simp)⟩
    | active => exact .inr (.inr (.inl ⟨d, rfl, rfl, whenActive_active h⟩))
    | consumed => exact .inl ⟨_, whenActive_consumed h, by simp, .inr (by simp)⟩
  | finalize =>
    cases h : s.phase with
    | uninit => exact .inl ⟨_, whenActive_uninit h, by simp, .inr (by simp)⟩
    | active => exact .inr (.inr (.inr ⟨rfl, rfl, whenActive_active h⟩))
    | consumed => exact .inl ⟨_, whenActive_consumed h, by simp, .inr (by simp)⟩
  | _ => exact .inl ⟨_, rfl, by simp, .inl rfl⟩

/-! ## The fields after `WBYTE` in phase `ACTIVE` -/

@[simp] theorem appendByte_buf (d : Byte) (s : State) : (appendByte d s).buf = s.buf.write s.nbuf.val d := by
  unfold appendByte; split <;> rfl
@[simp] theorem appendByte_len (d : Byte) (s : State) : (appendByte d s).len = add64 s.len 1 := by
  unfold appendByte; split <;> rfl
@[simp] theorem appendByte_out (d : Byte) (s : State) : (appendByte d s).out = s.out := by
  unfold appendByte; split <;> rfl
@[simp] theorem appendByte_phase (d : Byte) (s : State) : (appendByte d s).phase = s.phase := by
  unfold appendByte; split <;> rfl
@[simp] theorem appendByte_err (d : Byte) (s : State) : (appendByte d s).err = s.err := by
  unfold appendByte; split <;> rfl
@[simp] theorem appendByte_cause (d : Byte) (s : State) : (appendByte d s).cause = s.cause := by
  unfold appendByte; split <;> rfl
@[simp] theorem appendByte_draws (d : Byte) (s : State) : (appendByte d s).draws = s.draws := by
  unfold appendByte; split <;> rfl
@[simp] theorem appendByte_port (d : Byte) (s : State) : (appendByte d s).port = s.port := by
  unfold appendByte; split <;> rfl

theorem appendByte_nbuf (d : Byte) (s : State) : (appendByte d s).nbuf.val = (s.nbuf.val + 1) % 64 := by
  unfold appendByte
  split
  · rename_i h; simp [h]
  · show (s.nbuf + 1).val = _
    rw [Fin.val_add]
    rfl

theorem appendByte_h (d : Byte) (s : State) :
    (appendByte d s).h = if s.nbuf = 63 then compress s.h (bufBlock (storeByte d s)) else s.h := by
  unfold appendByte; split <;> rfl

theorem bufByte_appendByte (d : Byte) (s : State) (x : Nat) :
    bufByte (appendByte d s) x = if x = s.nbuf.val then d else bufByte s x :=
  (bufByte_congr (t := memWrite1 s s.nbuf.val d) (appendByte_buf d s) (appendByte_draws d s) x).trans
    (bufByte_memWrite1 s _ x d)

theorem bufByte_storeByte (d : Byte) (s : State) (x : Nat) :
    bufByte (storeByte d s) x = if x = s.nbuf.val then d else bufByte s x :=
  bufByte_memWrite1 s s.nbuf.val x d

/-! ## The fields after `PAD` and `FINALIZE` in phase `ACTIVE` -/

@[simp] theorem padLast_out (s : State) : (padLast s).out = s.out := by
  unfold padLast padMarked; dsimp only; split <;> rfl
@[simp] theorem padLast_phase (s : State) : (padLast s).phase = s.phase := by
  unfold padLast padMarked; dsimp only; split <;> rfl
@[simp] theorem padLast_err (s : State) : (padLast s).err = s.err := by
  unfold padLast padMarked; dsimp only; split <;> rfl
@[simp] theorem padLast_cause (s : State) : (padLast s).cause = s.cause := by
  unfold padLast padMarked; dsimp only; split <;> rfl
@[simp] theorem padLast_draws (s : State) : (padLast s).draws = s.draws := by
  unfold padLast padMarked; dsimp only; split <;> rfl
@[simp] theorem padLast_port (s : State) : (padLast s).port = s.port := by
  unfold padLast padMarked; dsimp only; split <;> rfl

@[simp] theorem finishMessage_phase (s : State) : (finishMessage s).phase = .consumed := rfl
@[simp] theorem finishMessage_buf (s : State) : (finishMessage s).buf = [] := rfl
@[simp] theorem finishMessage_err (s : State) : (finishMessage s).err = s.err := padLast_err s
@[simp] theorem finishMessage_cause (s : State) : (finishMessage s).cause = s.cause := padLast_cause s
@[simp] theorem finishMessage_port (s : State) : (finishMessage s).port = s.port := padLast_port s
@[simp] theorem finishMessage_draws (s : State) : (finishMessage s).draws = s.draws + 1 :=
  congrArg (· + 1) (padLast_draws s)
theorem finishMessage_out (s : State) :
    (finishMessage s).out = s.out.writeBytes 0 (bytesOfWords (compressBuf (padLast s)).h) :=
  congrArg (fun m => Memory.writeBytes m 0 (bytesOfWords (compressBuf (padLast s)).h)) (padLast_out s)

/-- The digest `FINALIZE` leaves in `OUT`, all 32 bytes of it stored. -/
theorem byte?_finishMessage_out (s : State) {x : Nat} (hx : x < 32) :
    (finishMessage s).out.byte? x = some ((bytesOfWords (compressBuf (padLast s)).h).getD x 0) := by
  rw [finishMessage_out, byte?_writeBytes, if_pos (by simpa using hx), Nat.sub_zero,
    List.getElem?_eq_getElem (by simpa using hx), List.getD_eq_getElem?_getD,
    List.getElem?_eq_getElem (by simpa using hx)]
  rfl

theorem outByte_finishMessage (s : State) {x : Nat} (hx : x < 32) :
    outByte (finishMessage s) x = (bytesOfWords (compressBuf (padLast s)).h).getD x 0 := by
  rw [outByte, byte?_finishMessage_out s hx]
  rfl

end Sys2Proof.Machine
end

