-- ==== Sys2Proof/Laws/Compress.lean ====
section
/-!
SUPPORT. The message schedule entry by entry, the working registers round by round, and `COMPRESS` as a function
of the block's bytes.
-/

namespace Sys2Proof.Machine

@[simp] theorem length_scheduleLoad (b : Fin 64 → Byte) : (scheduleLoad b).length = 16 := by
  simp [scheduleLoad]

theorem length_scheduleExtend (n : Nat) (w : List Word) : (scheduleExtend n w).length = w.length + n := by
  induction n generalizing w with
  | zero => rfl
  | succ n ih => simp only [scheduleExtend, ih, List.length_append, List.length_singleton]; omega

@[simp] theorem length_schedule (b : Fin 64 → Byte) : (schedule b).length = 64 := by
  simp [schedule, length_scheduleExtend]

/-- Extending the schedule keeps the entries it has. -/
theorem scheduleExtend_getD_old (n : Nat) (w : List Word) {t : Nat} (h : t < w.length) :
    (scheduleExtend n w).getD t 0 = w.getD t 0 := by
  induction n generalizing w with
  | zero => rfl
  | succ n ih =>
    rw [scheduleExtend, ih _ (by rw [List.length_append]; omega)]
    simp only [List.getD_eq_getElem?_getD, List.getElem?_append_left h]

/-- Every entry the extension adds is the recurrence over the earlier ones (R101). -/
theorem scheduleExtend_getD_new (n : Nat) (w : List Word) (h16 : 16 ≤ w.length) {t : Nat} (h : w.length ≤ t)
    (ht : t < w.length + n) :
    (scheduleExtend n w).getD t 0 =
      ssig1 ((scheduleExtend n w).getD (t - 2) 0) + (scheduleExtend n w).getD (t - 7) 0 +
        ssig0 ((scheduleExtend n w).getD (t - 15) 0) + (scheduleExtend n w).getD (t - 16) 0 := by
  induction n generalizing w with
  | zero => omega
  | succ n ih =>
    have hlen : (w ++ [scheduleNext w]).length = w.length + 1 := by simp
    by_cases hw : t = w.length
    · subst hw
      have old : ∀ k, k < w.length → (scheduleExtend (n + 1) w).getD k 0 = w.getD k 0 :=
        fun k hk => scheduleExtend_getD_old (n + 1) w hk
      have last : (scheduleExtend (n + 1) w).getD w.length 0 = scheduleNext w := by
        rw [scheduleExtend, scheduleExtend_getD_old _ _ (by rw [hlen]; omega)]
        simp [List.getD_eq_getElem?_getD]
      rw [last, old _ (by omega), old _ (by omega), old _ (by omega), old _ (by omega), scheduleNext]
    · rw [scheduleExtend]
      exact ih _ (by omega) (by omega) (by omega)

theorem schedule_getD_load (b : Fin 64 → Byte) {t : Nat} (h : t < 16) :
    (schedule b).getD t 0 = be32 (b ⟨4 * t, by omega⟩) (b ⟨4 * t + 1, by omega⟩) (b ⟨4 * t + 2, by omega⟩)
      (b ⟨4 * t + 3, by omega⟩) := by
  rw [schedule, scheduleExtend_getD_old _ _ (by simpa using h), scheduleLoad,
    List.getD_eq_getElem?_getD, List.getElem?_ofFn, dif_pos h]
  rfl

theorem schedule_getD_next (b : Fin 64 → Byte) {t : Nat} (h : 16 ≤ t) (ht : t < 64) :
    (schedule b).getD t 0 = ssig1 ((schedule b).getD (t - 2) 0) + (schedule b).getD (t - 7) 0 +
      ssig0 ((schedule b).getD (t - 15) 0) + (schedule b).getD (t - 16) 0 :=
  scheduleExtend_getD_new 48 _ (by simp) (by simpa using h) (by simpa using ht)

/-- Bit `i` of a rotation right by `n` is bit `i + n` modulo 32 (R8). -/
theorem rotr_getLsbD (x : Word) {n i : Nat} (hn : n < 32) (hi : i < 32) :
    (rotr x n).getLsbD i = x.getLsbD ((i + n) % 32) := by
  simp only [rotr, BitVec.getLsbD_rotateRight, Nat.mod_eq_of_lt hn]
  by_cases h : i < 32 - n
  · simp only [h, decide_true, cond_true]; congr 1; omega
  · simp only [h, decide_false, cond_false, hi, decide_true, Bool.true_and]; congr 1; omega

/-- The value of four bytes read big-endian (R40). -/
theorem toNat_be32 (b0 b1 b2 b3 : Byte) :
    (be32 b0 b1 b2 b3).toNat = b0.toNat * 2 ^ 24 + b1.toNat * 2 ^ 16 + b2.toNat * 2 ^ 8 + b3.toNat := by
  have h1 := b1.isLt
  have h2 := b2.isLt
  have h3 := b3.isLt
  simp only [be32, BitVec.toNat_append]
  rw [← Nat.shiftLeft_add_eq_or_of_lt h3, ← Nat.shiftLeft_add_eq_or_of_lt h2, ← Nat.shiftLeft_add_eq_or_of_lt h1]
  simp only [Nat.shiftLeft_eq]
  omega

@[simp] theorem length_roundConstants : roundConstants.length = 64 := rfl

theorem workingAfter_zero (hin : Words8) (w : List Word) : workingAfter hin w 0 = loadWorking hin := rfl

/-- One more round (R103). -/
theorem workingAfter_succ (hin : Words8) {w : List Word} (hw : w.length = 64) {t : Nat} (h : t < 64) :
    workingAfter hin w (t + 1) =
      compressRound (workingAfter hin w t) (roundConstants.getD t 0) (w.getD t 0) := by
  have hz : (roundConstants.zip w)[t]? = some (roundConstants.getD t 0, w.getD t 0) := by
    rw [List.getElem?_zip_eq_some]
    constructor
    · show roundConstants[t]? = some (roundConstants.getD t 0)
      rw [List.getD_eq_getElem?_getD, List.getElem?_eq_getElem (by simpa using h)]; rfl
    · show w[t]? = some (w.getD t 0)
      rw [List.getD_eq_getElem?_getD, List.getElem?_eq_getElem (by omega)]; rfl
  rw [workingAfter, List.take_add_one, hz, List.foldl_append]
  rfl

/-- Equal arguments give equal words. Cite it to compare two applications of `compress`: `congr` and `rfl` would first
try to unfold the 64 rounds. -/
theorem compress_congr {h h' : Words8} {b b' : Fin 64 → Byte} (eh : h = h') (eb : b = b') :
    compress h b = compress h' b' := by
  rw [eh, eb]

/-- `bufBlock` depends on the 64 bytes of `BUF` only. -/
theorem bufBlock_congr {s t : State} (h : ∀ a, a < 64 → bufByte s a = bufByte t a) : bufBlock s = bufBlock t :=
  funext fun i => h i.val i.isLt

end Sys2Proof.Machine
end

