-- ==== Sys2Proof/Laws/Finalize.lean ====
section
/-!
SUPPORT. What `PAD` leaves in `BUF` and in `H`, and so the words that `SERIALIZE` reads.
-/

namespace Sys2Proof.Machine

theorem bitLength_eq (len : BitVec 64) : bitLength len = len * 8 := by
  apply BitVec.eq_of_toNat_eq
  simp [bitLength, shl64, BitVec.toNat_shiftLeft, BitVec.toNat_mul, Nat.shiftLeft_eq]

theorem bytes64_lengthByte (len : BitVec 64) {i : Nat} (h : 56 ≤ i) (hi : i < 64) :
    (bytes64 (bitLength len)).getD (i - 56) 0 = lengthByte len i := by
  rw [bytes64_getD _ (by omega), bitLength_eq, lengthByte, show 56 - 8 * (i - 56) = 8 * (63 - i) by omega]

/-- `PAD` with room for the length: one block (R112, R114). -/
theorem bufBlock_padLast_short {s : State} (h : s.nbuf.val ≤ 55) : bufBlock (padLast s) = shortPadBlock s := by
  have hm : padMarked s = zeroFill (memWrite1 s s.nbuf.val Config.padMark) (s.nbuf.val + 1) (55 - s.nbuf.val) := by
    simp only [padMarked]; rw [if_neg (by omega)]
  funext i
  have hi := i.isLt
  simp only [bufBlock, padLast, bufByte_memWrite8, hm, bufByte_zeroFill, bufByte_memWrite1, shortPadBlock,
    Config.lenPos]
  by_cases h56 : i.val < 56
  · rw [if_neg (by omega)]
    by_cases hlt : i.val < s.nbuf.val
    · rw [if_neg (by omega), if_neg (by omega), if_pos hlt]
    · rw [if_neg hlt]
      by_cases heq : i.val = s.nbuf.val
      · rw [if_neg (by omega), if_pos heq, if_pos heq]
      · rw [if_pos (by omega), if_neg heq, if_pos h56]
  · rw [if_pos (by omega), if_neg (by omega), if_neg (by omega), if_neg h56,
      bytes64_lengthByte s.len (by omega) hi]

theorem padLast_h_short {s : State} (h : s.nbuf.val ≤ 55) : (padLast s).h = s.h := by
  simp only [padLast, memWrite8_h, padMarked]
  rw [if_neg (by omega)]
  rfl

theorem bufBlock_padFirst {s : State} (h : 55 < s.nbuf.val) :
    bufBlock (zeroFill (memWrite1 s s.nbuf.val Config.padMark) (s.nbuf.val + 1) (63 - s.nbuf.val)) =
      longPadFirst s := by
  funext i
  have hi := i.isLt
  simp only [bufBlock, bufByte_zeroFill, bufByte_memWrite1, longPadFirst]
  by_cases hlt : i.val < s.nbuf.val
  · rw [if_neg (by omega), if_neg (by omega), if_pos hlt]
  · rw [if_neg hlt]
    by_cases heq : i.val = s.nbuf.val
    · rw [if_neg (by omega), if_pos heq, if_pos heq]
    · rw [if_pos (by omega), if_neg heq]

/-- `PAD` without room for the length: the first block is compressed (R113). -/
theorem padLast_h_long {s : State} (h : 55 < s.nbuf.val) : (padLast s).h = compress s.h (longPadFirst s) := by
  simp only [padLast, memWrite8_h, padMarked]
  rw [if_pos h, zeroFill_h, compressBuf_h, bufBlock_padFirst h]
  rfl

/-- `PAD` without room for the length: the second block (R113, R114). -/
theorem bufBlock_padLast_long {s : State} (h : 55 < s.nbuf.val) : bufBlock (padLast s) = longPadSecond s := by
  have hm : ∃ u, padMarked s = zeroFill u 0 56 := ⟨_, by simp only [padMarked]; rw [if_pos h]⟩
  obtain ⟨u, hm⟩ := hm
  funext i
  have hi := i.isLt
  simp only [bufBlock, padLast, bufByte_memWrite8, hm, bufByte_zeroFill, longPadSecond, Config.lenPos]
  by_cases h56 : i.val < 56
  · rw [if_neg (by omega), if_pos (by omega), if_pos h56]
  · rw [if_pos (by omega), if_neg h56, bytes64_lengthByte s.len (by omega) hi]

/-- The words that `SERIALIZE` reads (R113 to R115). -/
theorem finalWords_eq (s : State) : (compressBuf (padLast s)).h = finalWords s := by
  rw [compressBuf_h, finalWords]
  split
  · rename_i h; rw [padLast_h_short h, bufBlock_padLast_short h]
  · rename_i h; rw [padLast_h_long (by omega), bufBlock_padLast_long (by omega)]

/-- The bytes of eight words in `OUT` are all of `OUT`. -/
theorem outBytes_eq {t : State} {w : Words8}
    (h : ∀ x, x < 32 → outByte t x = (bytesOfWords w).getD x 0) : outBytes t = bytesOfWords w := by
  apply List.ext_getElem?
  intro i
  by_cases hi : i < 32
  · simp only [outBytes, List.getElem?_map, List.getElem?_range hi, Option.map_some]
    rw [h i hi, List.getD_eq_getElem?_getD, List.getElem?_eq_getElem (by simpa using hi)]; rfl
  · rw [List.getElem?_eq_none (by simp [outBytes]; omega), List.getElem?_eq_none (by simp; omega)]

/-- The digest a successful `FINALIZE` leaves (R116). -/
theorem outBytes_finishMessage (s : State) : outBytes (finishMessage s) = bytesOfWords (finalWords s) :=
  outBytes_eq fun x hx => by rw [outByte_finishMessage s hx, finalWords_eq]

/-- The words `SERIALIZE` reads depend on `H`, `NBUF`, `LEN` and `BUF[0..NBUF-1]` only (R29). -/
theorem finalWords_congr {t t' : State} (h1 : t.h = t'.h) (h2 : t.nbuf = t'.nbuf) (h3 : t.len = t'.len)
    (hb : ∀ i, i < t.nbuf.val → bufByte t i = bufByte t' i) : finalWords t = finalWords t' := by
  have e1 : shortPadBlock t = shortPadBlock t' := by
    funext i; unfold shortPadBlock; rw [← h2, ← h3]; split
    · rename_i h; rw [hb _ h]
    · rfl
  have e2 : longPadFirst t = longPadFirst t' := by
    funext i; unfold longPadFirst; rw [← h2]; split
    · rename_i h; rw [hb _ h]
    · rfl
  have e3 : longPadSecond t = longPadSecond t' := by
    funext i; unfold longPadSecond; rw [h3]
  unfold finalWords; rw [e1, e2, e3, h1, h2]

end Sys2Proof.Machine
end

