-- ==== Sys2Proof/Laws/PerInstr.lean ====
section
/-!
SUPPORT. Statements about every instruction as syntax, one lemma per constructor.
-/

/-- The token of a well-formed instruction selects that instruction's row of the opcode table
(spec/30_encoding.md R60). -/
def Sys2Proof.Laws.EncodeRow.Statement (i : Sys2Proof.Instr) : Prop :=
  i.wellFormed = true → Sys2Proof.rowSelects (Sys2Proof.rowOf i) (Sys2Proof.encode i) = true

namespace Sys2Proof.Laws.EncodeRow

theorem init : Statement .init := by intro _; decide
theorem wbyte (d : Byte) : Statement (.wbyte d) := by intro _; revert d; decide
theorem finalize : Statement .finalize := by intro _; decide
theorem reservedOp0B7 (data : Byte) : Statement (.reservedOp0B7 data) := by
  intro h; revert h; revert data; decide
theorem reservedOp0B6 (data : Byte) : Statement (.reservedOp0B6 data) := by
  intro h; revert h; revert data; decide
theorem reservedOp0B5 (data : Byte) : Statement (.reservedOp0B5 data) := by
  intro h; revert h; revert data; decide
theorem reservedOp0B4 (data : Byte) : Statement (.reservedOp0B4 data) := by
  intro h; revert h; revert data; decide
theorem reservedOp0B3 (data : Byte) : Statement (.reservedOp0B3 data) := by
  intro h; revert h; revert data; decide
theorem reservedOp0B2 (data : Byte) : Statement (.reservedOp0B2 data) := by
  intro h; revert h; revert data; decide
theorem reservedOp0B1 (data : Byte) : Statement (.reservedOp0B1 data) := by
  intro h; revert h; revert data; decide
theorem reservedOp0B0 : Statement .reservedOp0B0 := by intro _; decide
theorem reservedOp2B7 (data : Byte) : Statement (.reservedOp2B7 data) := by
  intro h; revert h; revert data; decide
theorem reservedOp2B6 (data : Byte) : Statement (.reservedOp2B6 data) := by
  intro h; revert h; revert data; decide
theorem reservedOp2B5 (data : Byte) : Statement (.reservedOp2B5 data) := by
  intro h; revert h; revert data; decide
theorem reservedOp2B4 (data : Byte) : Statement (.reservedOp2B4 data) := by
  intro h; revert h; revert data; decide
theorem reservedOp2B3 (data : Byte) : Statement (.reservedOp2B3 data) := by
  intro h; revert h; revert data; decide
theorem reservedOp2B2 (data : Byte) : Statement (.reservedOp2B2 data) := by
  intro h; revert h; revert data; decide
theorem reservedOp2B1 (data : Byte) : Statement (.reservedOp2B1 data) := by
  intro h; revert h; revert data; decide
theorem reservedOp2B0 : Statement .reservedOp2B0 := by intro _; decide
theorem reservedOp3 (data : Byte) : Statement (.reservedOp3 data) := by intro _; revert data; decide

end Sys2Proof.Laws.EncodeRow
end

