-- ==== Sys2Proof/Laws/Run.lean ====
section
/-!
SUPPORT. Sequences of instructions: every sequence completes, and what it leaves is a fold of the effects.
-/

namespace Sys2Proof.Machine

/-- The state after one instruction, in every state. -/
def after (s : State) (i : Instr) : State := if s.err then s else effect i s

theorem exec_after (i : Instr) (s : State) : exec i s = .next (after s i) := exec_eq i s

/-- Every sequence of instructions completes. -/
theorem execAll_eq (is : List Instr) (s : State) : execAll is s = .next (is.foldl after s) := by
  induction is generalizing s with
  | nil => rfl
  | cons i is ih => simp only [execAll, exec_after, ih, List.foldl_cons]

theorem after_halted {s : State} (h : s.err = true) (i : Instr) : after s i = s := if_pos h

theorem after_running {s : State} (h : s.err = false) (i : Instr) : after s i = effect i s :=
  if_neg (by simp [h])

theorem foldl_after_halted {s : State} (h : s.err = true) (is : List Instr) : is.foldl after s = s := by
  induction is with
  | nil => rfl
  | cons i is ih => rw [List.foldl_cons, after_halted h, ih]

theorem after_init {s : State} (h : s.err = false) : after s .init = startMessage s := after_running h _

theorem after_wbyte {s : State} (h : s.err = false) (hp : s.phase = .active) (d : Byte) :
    after s (.wbyte d) = appendByte d s := (after_running h _).trans (whenActive_active hp)

theorem after_finalize {s : State} (h : s.err = false) (hp : s.phase = .active) :
    after s .finalize = finishMessage s := (after_running h _).trans (whenActive_active hp)

/-- Writing bytes in phase `ACTIVE` is appending them one after another. -/
theorem foldl_after_write {s : State} (h : s.err = false) (hp : s.phase = .active) (data : List Byte) :
    (assembleWrite data).foldl after s = data.foldl (fun t d => appendByte d t) s := by
  induction data generalizing s with
  | nil => rfl
  | cons d ds ih =>
    show (assembleWrite ds).foldl after (after s (.wbyte d)) = _
    rw [after_wbyte h hp, List.foldl_cons]
    exact ih (by simpa using h) (by simpa using hp)

theorem flatMap_assembleWrite (chunks : List (List Byte)) :
    chunks.flatMap assembleWrite = assembleWrite chunks.flatten := by
  induction chunks with
  | nil => rfl
  | cons c cs ih => simp [ih, assembleWrite]

/-- What appending bytes leaves alone. -/
theorem foldl_append_frame (data : List Byte) (s : State) :
    let t := data.foldl (fun t d => appendByte d t) s
    t.err = s.err ∧ t.phase = s.phase ∧ t.cause = s.cause ∧ t.out = s.out ∧ t.draws = s.draws ∧ t.port = s.port := by
  induction data generalizing s with
  | nil => exact ⟨rfl, rfl, rfl, rfl, rfl, rfl⟩
  | cons d ds ih => simpa using ih (appendByte d s)

/-- `LEN` counts the bytes appended, modulo 2^64 (R82). -/
theorem foldl_append_len (data : List Byte) (s : State) :
    (data.foldl (fun t d => appendByte d t) s).len = s.len + BitVec.ofNat 64 data.length := by
  induction data generalizing s with
  | nil => simp
  | cons d ds ih =>
    rw [List.foldl_cons, ih, appendByte_len, add64, List.length_cons, BitVec.add_assoc]
    congr 1
    apply BitVec.eq_of_toNat_eq
    simp [BitVec.toNat_add, Nat.add_comm]

/-! ## Byte strings cut into blocks -/

theorem blockOf_append (m e : List Byte) {j : Nat} (h : 64 * j + 64 ≤ m.length) :
    blockOf (m ++ e) j = blockOf m j := by
  funext i
  have := i.isLt
  simp only [blockOf, List.getD_eq_getElem?_getD]
  rw [List.getElem?_append_left (by omega)]

theorem chainWords_append (m e : List Byte) {q : Nat} (h : 64 * q ≤ m.length) :
    chainWords (m ++ e) q = chainWords m q := by
  induction q with
  | zero => rfl
  | succ q ih => simp only [chainWords]; rw [ih (by omega), blockOf_append _ _ (by omega)]

theorem length_paddedMessage (m : List Byte) :
    (paddedMessage m).length = m.length + 1 + padZeros m.length + 8 := by
  simp [paddedMessage, bytes64]; omega

/-- No instruction writes the port. -/
theorem effect_port (i : Instr) (s : State) : (effect i s).port = s.port := by
  rcases effect_cases i s with ⟨x, h, -⟩ | ⟨-, h⟩ | ⟨d, -, -, h⟩ | ⟨-, -, h⟩ <;> rw [h] <;> simp

/-- No instruction reads the port. -/
theorem effect_withPort (i : Instr) (s : State) (p : List Token) :
    effect i { s with port := p } = { effect i s with port := p } := by
  have active : ∀ f : State → State, f { s with port := p } = { f s with port := p } →
      whenActive f { s with port := p } = { whenActive f s with port := p } := by
    intro f hf
    have h : s.phase = .uninit ∨ s.phase = .active ∨ s.phase = .consumed := by cases s.phase <;> simp
    rcases h with h | h | h
    · rw [whenActive_uninit h, whenActive_uninit (s := { s with port := p }) h]; rfl
    · rw [whenActive_active h, whenActive_active (s := { s with port := p }) h]; exact hf
    · rw [whenActive_consumed h, whenActive_consumed (s := { s with port := p }) h]; rfl
  cases i with
  | wbyte d => exact active _ (by unfold appendByte; dsimp only; split <;> rfl)
  | finalize => exact active _ (by unfold finishMessage padLast padMarked; dsimp only; split <;> rfl)
  | _ => rfl

theorem after_withPort (i : Instr) (s : State) (p : List Token) :
    after { s with port := p } i = { after s i with port := p } := by
  simp only [after, effect_withPort]
  split <;> rfl

/-- The step that accepts a token, in terms of its effect. -/
theorem step_cons {s : State} {c : Token} {rest : List Token} (h : s.port = c :: rest) :
    step s = .next { after s (decode c) with port := rest } := by
  simp only [step, h]
  rw [exec_after, after_withPort]

theorem step_nil {s : State} (h : s.port = []) : step s = .next s := by
  simp only [step, h]

end Sys2Proof.Machine
end

