-- ==== Sys2Proof/Tests/Slice0.lean ====
section
/-!
SUPPORT. Tests against spec/95_test_vectors.md and the encodings of spec/30_encoding.md, the smoke test of
`Instr.wellFormed`, and one witness for every statement that has hypotheses. Every expected value is the spec's own
or follows from the rule named; none was read off this model. Each test runs at most one step.
-/

namespace Sys2Proof.Tests

open Sys2Proof Sys2Proof.Machine

/-! ## Helpers -/

/-- The engine right after `INIT` in a message, written out as plain data. -/
def fresh : State where
  h := #v[0x6a09e667, 0xbb67ae85, 0x3c6ef372, 0xa54ff53a, 0x510e527f, 0x9b05688c, 0x1f83d9ab, 0x5be0cd19]
  buf := []
  nbuf := 0
  len := 0
  out := []
  phase := .active
  err := false
  cause := none
  draws := 0
  port := []

/-- The bytes `00 01 .. (n-1)`: `SEQ(n)` of spec/95 section 6.6. -/
def seqBytes (n : Nat) : List Byte := (List.range n).map (BitVec.ofNat 8)

/-- The engine after `INIT` and the bytes `m`, fewer than 64 of them. -/
def holding (m : List Byte) : State :=
  { fresh with
    buf := cellsFrom 0 m
    nbuf := Fin.ofNat 64 m.length
    len := BitVec.ofNat 64 m.length }

/-- An engine with a digest of 32 bytes `00 .. 1f` in `OUT`. -/
def finished : State := { fresh with out := cellsFrom 0 (seqBytes 32), phase := .consumed }

/-- An engine before its first `INIT`. -/
def idle : State := { fresh with phase := .uninit }

/-- A halted engine (`CAUSE = 3`), with two tokens on its port. -/
def halted : State := { finished with err := true, cause := some .consumed, port := [0x000, 0x161] }

/-- A property of the next state, if there is one. -/
def nextHas (p : State → Bool) : Host.Outcome State Fault Refusal → Bool
  | .next t => p t
  | .fault _ => false
  | .refused _ => false

/-- `STATUS` after one token. -/
def statusAfter (c : Token) (s : State) : Option (BitVec 8) :=
  match exec (decode c) s with
  | .next t => some (status t)
  | .fault _ => none
  | .refused _ => none

/-- A block from its bytes. -/
def block (m : List Byte) : Fin 64 → Byte := fun i => m.getD i.val 0

/-- The "abc" block (spec/95 section 4.1). -/
def abcBlock : Fin 64 → Byte :=
  block ([0x61, 0x62, 0x63, 0x80] ++ List.replicate 59 0x00 ++ [0x18])

/-- The 56 message bytes of spec/95 section 8.8. -/
def longMessage : List Byte :=
  [0x61, 0x62, 0x63, 0x64, 0x62, 0x63, 0x64, 0x65, 0x63, 0x64, 0x65, 0x66, 0x64, 0x65, 0x66, 0x67] ++
  [0x65, 0x66, 0x67, 0x68, 0x66, 0x67, 0x68, 0x69, 0x67, 0x68, 0x69, 0x6a, 0x68, 0x69, 0x6a, 0x6b] ++
  [0x69, 0x6a, 0x6b, 0x6c, 0x6a, 0x6b, 0x6c, 0x6d, 0x6b, 0x6c, 0x6d, 0x6e, 0x6c, 0x6d, 0x6e, 0x6f] ++
  [0x6d, 0x6e, 0x6f, 0x70, 0x6e, 0x6f, 0x70, 0x71]

/-! ## Ill-formed terms are refused (R60: the highest set data bit names the row) -/

theorem test_illformed_op0_bit7 :
    Instr.wellFormed (.reservedOp0B7 0x7f) = false := by decide

theorem test_illformed_op0_bit6 :
    Instr.wellFormed (.reservedOp0B6 0x80) = false ∧ Instr.wellFormed (.reservedOp0B6 0x3f) = false ∧ Instr.wellFormed (.reservedOp0B6 0xc0) = false := by decide

theorem test_illformed_op0_bit5 :
    Instr.wellFormed (.reservedOp0B5 0x40) = false ∧ Instr.wellFormed (.reservedOp0B5 0x1f) = false ∧ Instr.wellFormed (.reservedOp0B5 0xa0) = false := by decide

theorem test_illformed_op0_bit4 :
    Instr.wellFormed (.reservedOp0B4 0x20) = false ∧ Instr.wellFormed (.reservedOp0B4 0x0f) = false ∧ Instr.wellFormed (.reservedOp0B4 0x90) = false := by decide

theorem test_illformed_op0_bit3 :
    Instr.wellFormed (.reservedOp0B3 0x10) = false ∧ Instr.wellFormed (.reservedOp0B3 0x07) = false ∧ Instr.wellFormed (.reservedOp0B3 0x88) = false := by decide

theorem test_illformed_op0_bit2 :
    Instr.wellFormed (.reservedOp0B2 0x08) = false ∧ Instr.wellFormed (.reservedOp0B2 0x03) = false ∧ Instr.wellFormed (.reservedOp0B2 0x84) = false := by decide

theorem test_illformed_op0_bit1 :
    Instr.wellFormed (.reservedOp0B1 0x04) = false ∧ Instr.wellFormed (.reservedOp0B1 0x01) = false ∧ Instr.wellFormed (.reservedOp0B1 0x82) = false := by decide

theorem test_illformed_op2_bit7 :
    Instr.wellFormed (.reservedOp2B7 0x7f) = false := by decide

theorem test_illformed_op2_bit6 :
    Instr.wellFormed (.reservedOp2B6 0x80) = false ∧ Instr.wellFormed (.reservedOp2B6 0x3f) = false ∧ Instr.wellFormed (.reservedOp2B6 0xc0) = false := by decide

theorem test_illformed_op2_bit5 :
    Instr.wellFormed (.reservedOp2B5 0x40) = false ∧ Instr.wellFormed (.reservedOp2B5 0x1f) = false ∧ Instr.wellFormed (.reservedOp2B5 0xa0) = false := by decide

theorem test_illformed_op2_bit4 :
    Instr.wellFormed (.reservedOp2B4 0x20) = false ∧ Instr.wellFormed (.reservedOp2B4 0x0f) = false ∧ Instr.wellFormed (.reservedOp2B4 0x90) = false := by decide

theorem test_illformed_op2_bit3 :
    Instr.wellFormed (.reservedOp2B3 0x10) = false ∧ Instr.wellFormed (.reservedOp2B3 0x07) = false ∧ Instr.wellFormed (.reservedOp2B3 0x88) = false := by decide

theorem test_illformed_op2_bit2 :
    Instr.wellFormed (.reservedOp2B2 0x08) = false ∧ Instr.wellFormed (.reservedOp2B2 0x03) = false ∧ Instr.wellFormed (.reservedOp2B2 0x84) = false := by decide

theorem test_illformed_op2_bit1 :
    Instr.wellFormed (.reservedOp2B1 0x04) = false ∧ Instr.wellFormed (.reservedOp2B1 0x01) = false ∧ Instr.wellFormed (.reservedOp2B1 0x82) = false := by decide

/-! ## Tokens written out bit by bit (R57, R60 to R64; spec/95 section 3) -/

theorem test_decode_commands :
    decode 0b0000000000#10 = .init ∧ decode 0b0100000000#10 = .wbyte 0x00 ∧
    decode 0b0101100001#10 = .wbyte 0x61 ∧ decode 0b0110000000#10 = .wbyte 0x80 ∧
    decode 0b0111111111#10 = .wbyte 0xff ∧ decode 0b1000000000#10 = .finalize := by decide

theorem test_decode_reserved_op0 :
    decode 0b0010000000#10 = .reservedOp0B7 0x80 ∧
    decode 0b0011111111#10 = .reservedOp0B7 0xff ∧
    decode 0b0001000000#10 = .reservedOp0B6 0x40 ∧
    decode 0b0001111111#10 = .reservedOp0B6 0x7f ∧
    decode 0b0000100000#10 = .reservedOp0B5 0x20 ∧
    decode 0b0000111111#10 = .reservedOp0B5 0x3f ∧
    decode 0b0000010000#10 = .reservedOp0B4 0x10 ∧
    decode 0b0000011111#10 = .reservedOp0B4 0x1f ∧
    decode 0b0000001000#10 = .reservedOp0B3 0x08 ∧
    decode 0b0000001111#10 = .reservedOp0B3 0x0f ∧
    decode 0b0000000100#10 = .reservedOp0B2 0x04 ∧
    decode 0b0000000111#10 = .reservedOp0B2 0x07 ∧
    decode 0b0000000010#10 = .reservedOp0B1 0x02 ∧
    decode 0b0000000011#10 = .reservedOp0B1 0x03 ∧
    decode 0b0000000001#10 = .reservedOp0B0 := by decide

theorem test_decode_reserved_op2 :
    decode 0b1010000000#10 = .reservedOp2B7 0x80 ∧
    decode 0b1011111111#10 = .reservedOp2B7 0xff ∧
    decode 0b1001000000#10 = .reservedOp2B6 0x40 ∧
    decode 0b1001111111#10 = .reservedOp2B6 0x7f ∧
    decode 0b1000100000#10 = .reservedOp2B5 0x20 ∧
    decode 0b1000111111#10 = .reservedOp2B5 0x3f ∧
    decode 0b1000010000#10 = .reservedOp2B4 0x10 ∧
    decode 0b1000011111#10 = .reservedOp2B4 0x1f ∧
    decode 0b1000001000#10 = .reservedOp2B3 0x08 ∧
    decode 0b1000001111#10 = .reservedOp2B3 0x0f ∧
    decode 0b1000000100#10 = .reservedOp2B2 0x04 ∧
    decode 0b1000000111#10 = .reservedOp2B2 0x07 ∧
    decode 0b1000000010#10 = .reservedOp2B1 0x02 ∧
    decode 0b1000000011#10 = .reservedOp2B1 0x03 ∧
    decode 0b1000000001#10 = .reservedOp2B0 := by decide

theorem test_decode_reserved_op3 :
    decode 0b1100000000#10 = .reservedOp3 0x00 ∧ decode 0b1110100101#10 = .reservedOp3 0xa5 ∧
    decode 0b1111111111#10 = .reservedOp3 0xff := by decide

theorem test_encode_commands :
    encode .init = 0b0000000000#10 ∧ encode (.wbyte 0x61) = 0b0101100001#10 ∧
    encode .finalize = 0b1000000000#10 := by decide

/-- R64: 258 defined and 766 reserved tokens. -/
theorem test_token_counts :
    ((List.range 1024).filter fun n => (decode (BitVec.ofNat 10 n)).isReserved).length = 766 := by decide +kernel

/-- R57: 0x400 has no wire on the port. -/
theorem test_table_bits :
    decodeTableWord 16 0x161 = some (.wbyte 0x61) ∧ decodeTableWord 16 0x400 = none := by decide

/-- spec/95 section 3: what `WRITE "abc"`, `HASH "abc"` and `HASH ""` assemble to. -/
theorem test_assemble :
    (assembleWrite [0x61, 0x62, 0x63]).map encode = [0x161#10, 0x162#10, 0x163#10] ∧
    (assembleHash [0x61, 0x62, 0x63]).map encode = [0x000#10, 0x161#10, 0x162#10, 0x163#10, 0x200#10] ∧
    (assembleHash []).map encode = [0x000#10, 0x200#10] := by decide

/-! ## Primitives (spec/95 section 6.1) -/

theorem test_sums :
    add32 0xffffffff 0x00000001 = 0 ∧ add32 0x80000000 0x80000000 = 0 ∧
    add32 0xa54ff53a 0x54da50e8 = 0xfa2a4622 ∧ add64 0xffffffffffffffff 1 = 0 := by decide

theorem test_shl64 :
    shl64 0x0000000000000003 3 = 0x18 ∧ shl64 0x2000000000000000 3 = 0 ∧
    shl64 0x2000000000000001 3 = 8 := by decide

theorem test_rotr_shr :
    rotr 0x00000001 1 = 0x80000000 ∧ rotr 0x80000001 1 = 0xc0000000 ∧ rotr 0x12345678 8 = 0x78123456 ∧
    rotr 0x12345678 31 = 0x2468acf0 ∧ shr 0x80000001 1 = 0x40000000 ∧ shr 0x12345678 8 = 0x00123456 := by decide

theorem test_bsig0 :
    [0x00000001, 0x80000000, 0xffffffff, 0x6a09e667, 0x510e527f, 0x12345678].map bsig0 =
      [0x40080400, 0x20040200, 0xffffffff, 0xce20b47e, 0x7ef0e1a9, 0x66146474] := by decide

theorem test_bsig1 :
    [0x00000001, 0x80000000, 0xffffffff, 0x6a09e667, 0x510e527f, 0x12345678].map bsig1 =
      [0x04200080, 0x02100040, 0xffffffff, 0x55b65510, 0x3587272b, 0x3561abda] := by decide

theorem test_ssig0 :
    [0x00000001, 0x80000000, 0xffffffff, 0x6a09e667, 0x510e527f, 0x12345678].map ssig0 =
      [0x02004000, 0x11002000, 0x1fffffff, 0xba0cf582, 0x601c02a8, 0xe7fce6ee] := by decide

theorem test_ssig1 :
    [0x00000001, 0x80000000, 0xffffffff, 0x6a09e667, 0x510e527f, 0x12345678].map ssig1 =
      [0x0000a000, 0x00205000, 0x003fffff, 0xcfe5da3c, 0xe3640132, 0xa1f78649] := by decide

theorem test_ch :
    ch 0 0xaaaaaaaa 0x55555555 = 0x55555555 ∧ ch 0xf0f0f0f0 0xcccccccc 0xaaaaaaaa = 0xcacacaca ∧
    ch 0x510e527f 0x9b05688c 0x1f83d9ab = 0x1f85c98c := by decide

theorem test_maj :
    maj 0xffffffff 0xaaaaaaaa 0x55555555 = 0xffffffff ∧ maj 0xf0f0f0f0 0xcccccccc 0xaaaaaaaa = 0xe8e8e8e8 ∧
    maj 0x6a09e667 0xbb67ae85 0x3c6ef372 = 0x3a6fe667 := by decide

theorem test_memRead4 : memRead4 (holding [0x61, 0x62, 0x63, 0x80]) 0 = 0x61626380 := by decide

theorem test_memWrite8 :
    (memWrite8 fresh 56 0x0123456789abcdef).buf =
      [(56, 0x01), (57, 0x23), (58, 0x45), (59, 0x67), (60, 0x89), (61, 0xab), (62, 0xcd), (63, 0xef)] := by decide

theorem test_serialize_first_word :
    ((serialize { fresh with h := #v[0xba7816bf, 0, 0, 0, 0, 0, 0, 0] }).out.take 4) =
      [(0, 0xba), (1, 0x78), (2, 0x16), (3, 0xbf)] := by decide

/-! ## `COMPRESS` (spec/95 sections 4 and 6.4) -/

theorem test_schedule_abc :
    [0, 1, 15, 16, 17, 18, 40, 63].map (fun t => (schedule abcBlock).getD t 0) =
      [0x61626380, 0, 0x18, 0x61626380, 0x000f0000, 0x7da86405, 0x9f47bf94, 0x12b1edeb] := by decide +kernel

theorem test_first_round_abc :
    workingAfter iv (schedule abcBlock) 1 =
      ⟨0x5d6aebcd, 0x6a09e667, 0xbb67ae85, 0x3c6ef372, 0xfa2a4622, 0x510e527f, 0x9b05688c, 0x1f83d9ab⟩ := by
  decide +kernel

theorem test_last_round_abc :
    workingAfter iv (schedule abcBlock) 64 =
      ⟨0x506e3058, 0xd39a2165, 0x04d24d6c, 0xb85e2ce9, 0x5ef50f24, 0xfb121210, 0x948d25b6, 0x961f4894⟩ := by
  decide +kernel

theorem test_compress_zero :
    compress #v[0, 0, 0, 0, 0, 0, 0, 0] (block []) =
      #v[0x7ca51614, 0x425c3ba8, 0xce54dd2f, 0xc2020ae7, 0xb6e574d1, 0x98136d0f, 0xae7e26cc, 0xbf0be7a6] := by
  decide +kernel

/-- S1, P1: the block of the empty message. -/
theorem test_compress_empty_message :
    compress iv (block [0x80]) =
      #v[0xe3b0c442, 0x98fc1c14, 0x9afbf4c8, 0x996fb924, 0x27ae41e4, 0x649b934c, 0xa495991b, 0x7852b855] := by
  decide +kernel

theorem test_compress_ones :
    compress iv (block (List.replicate 64 0xff)) =
      #v[0xef0c748d, 0xf4da50a8, 0xd6c43c01, 0x3edc3ce7, 0x6c9d9fa9, 0xa1458ade, 0x56eb86c0, 0xa64492d2] := by
  decide +kernel

/-! ## `INIT` (spec/95 section 6.2) -/

theorem test_init_abandons :
    nextHas (fun t => t == { holding [0x61, 0x62, 0x63] with nbuf := 0, len := 0 })
      (exec .init { holding [0x61, 0x62, 0x63] with h := #v[1, 2, 3, 4, 5, 6, 7, 8] }) = true := by decide

theorem test_init_keeps_out : nextHas (fun t => t.out == finished.out) (exec .init finished) = true := by decide

/-! ## `WBYTE` (spec/95 section 6.3) -/

theorem test_wbyte_block :
    nextHas (fun t => t.h == #v[0xfc99a2df, 0x88f42a7a, 0x7bb9d180, 0x33cdc6a2,
        0x0256755f, 0x9d5b9a50, 0x44a9cc31, 0x5abe84a7] && t.nbuf == 0 && t.len == 64)
      (exec (.wbyte 0x3f) (holding (seqBytes 63))) = true := by decide +kernel

theorem test_wbyte_len_wraps :
    nextHas (fun t => t.nbuf == 6 && t.len == 0 && status t == 0x01)
      (exec (.wbyte 0x00) { holding (seqBytes 5) with len := 0xffffffffffffffff }) = true := by decide

/-! ## `FINALIZE` (spec/95 sections 6.5, 6.6, 8) -/

theorem test_finalize_abc :
    nextHas (fun t => outBytes t ==
        [0xba, 0x78, 0x16, 0xbf, 0x8f, 0x01, 0xcf, 0xea, 0x41, 0x41, 0x40, 0xde, 0x5d, 0xae, 0x22, 0x23,
          0xb0, 0x03, 0x61, 0xa3, 0x96, 0x17, 0x7a, 0x9c, 0xb4, 0x10, 0xff, 0x61, 0xf2, 0x00, 0x15, 0xad] &&
        status t == 0x02)
      (exec .finalize (holding [0x61, 0x62, 0x63])) = true := by decide +kernel

/-- `NBUF = 56`: two compressions; `digest` has `OUT[0]` in its top byte. -/
theorem test_finalize_two_blocks :
    nextHas (fun t => digestPort t ==
        0x248d6a61d20638b8e5c026930c3e6039a33ce45964ff2167f6ecedd419db06c1)
      (exec .finalize (holding longMessage)) = true := by decide +kernel

/-- The longest message of one padded block, `n = 55`, and the empty one (spec/95 section 6.5). -/
theorem test_padding_layout :
    (List.range 64).map (bufByte (padLast (holding (seqBytes 55)))) =
      seqBytes 55 ++ [0x80, 0x00, 0x00, 0x00, 0x00, 0x00, 0x00, 0x01, 0xb8] ∧
    (List.range 64).map (bufByte (padLast fresh)) = [0x80] ++ List.replicate 63 0x00 := by decide +kernel

/-- The function of R120 itself, on "abc". -/
theorem test_sha256_abc :
    sha256 [0x61, 0x62, 0x63] =
      [0xba, 0x78, 0x16, 0xbf, 0x8f, 0x01, 0xcf, 0xea, 0x41, 0x41, 0x40, 0xde, 0x5d, 0xae, 0x22, 0x23,
        0xb0, 0x03, 0x61, 0xa3, 0x96, 0x17, 0x7a, 0x9c, 0xb4, 0x10, 0xff, 0x61, 0xf2, 0x00, 0x15, 0xad] := by
  decide +kernel

/-! ## Faults and phases (spec/95 section 7) -/

theorem test_status_uninit :
    [0x000, 0x161, 0x200, 0x300, 0x2ff].map (fun c => statusAfter c State.reset) =
      [some 0x01, some 0x14, some 0x14, some 0x0c, some 0x0c] := by decide

theorem test_status_active :
    [0x000, 0x1ff, 0x001].map (fun c => statusAfter c fresh) = [some 0x01, some 0x01, some 0x0d] := by decide

theorem test_status_consumed :
    [0x000, 0x100, 0x200, 0x3ff].map (fun c => statusAfter c finished) =
      [some 0x01, some 0x1e, some 0x1e, some 0x0e] := by decide

theorem test_halted_ignores :
    [0x000, 0x161, 0x200, 0x3ff].all (fun c => nextHas (fun t => t == halted) (exec (decode c) halted)) = true := by
  decide

/-- One reserved token of each row (R127): nothing but `ERR` and `CAUSE` changes. -/
theorem test_reserved_rows :
    [0x0ff, 0x07f, 0x03f, 0x01f, 0x00f, 0x007, 0x003, 0x001, 0x2ff, 0x27f, 0x23f, 0x21f, 0x20f, 0x207, 0x203,
      0x201, 0x3a5].all (fun c => nextHas
        (fun t => t == { holding [0x61] with err := true, cause := some .illegalCommand })
        (exec (decode c) (holding [0x61]))) = true := by decide

theorem test_reset : status (assertReset halted) = 0x00 ∧ (assertReset halted).err = false := by decide

/-- A token placed by `withFetchWord` is the one the next step executes. -/
theorem test_fetch :
    nextHas (fun t => t == holding [0x61]) (step (fresh.withFetchWord 10 0x161)) = true := by decide

/-- No token presented: the engine waits. -/
theorem test_wait : nextHas (fun t => t == fresh) (step fresh) = true := by decide

/-! ## Witnesses: states and operands that meet the hypotheses of the statements -/

theorem witness_DecodeInvertsEncode :
    Instr.wellFormed .init = true ∧ Instr.wellFormed (.wbyte 0xff) = true ∧ Instr.wellFormed .finalize = true ∧
    Instr.wellFormed (.reservedOp0B7 0xff) = true ∧ Instr.wellFormed (.reservedOp0B6 0x40) = true ∧
    Instr.wellFormed (.reservedOp0B1 0x03) = true ∧ Instr.wellFormed .reservedOp0B0 = true ∧
    Instr.wellFormed (.reservedOp2B7 0x80) = true ∧ Instr.wellFormed (.reservedOp2B1 0x02) = true ∧
    Instr.wellFormed (.reservedOp3 0x00) = true := by decide

/-- Every clause at the ends of its range of tokens; the reserved ranges exclude the defined tokens. -/
theorem witness_DecoderFollowsRule65 :
    (0x100#10).toNat = 0x100 + (0x00#8).toNat ∧ (0x1ff#10).toNat = 0x100 + (0xff#8).toNat ∧
    (∀ c ∈ [0x001#10, 0x0ff#10, 0x201#10, 0x2ff#10, 0x300#10, 0x3ff#10], reservedToken c) ∧
    (∀ c ∈ [0x000#10, 0x100#10, 0x1ff#10, 0x200#10], ¬ reservedToken c ∧ (decode c).isReserved = false) := by
  decide

theorem witness_TableBitsDecode :
    0x161 % 2 ^ 10 = (0x161#10).toNat ∧ 0x3ff % 2 ^ 16 = (0x3ff#10).toNat ∧ 1024 ≤ 0x400 % 2 ^ 16 := by decide

theorem witness_StepRunsTheDecodedToken :
    halted.port = 0x000 :: [0x161] ∧ fresh.port = [] ∧ 0x200 % 2 ^ 10 = (0x200#10).toNat := by decide

theorem witness_OneObservationPerToken :
    1 < [0x000#10, 0x161#10].length ∧
    ∃ t, execAll (([0x000#10, 0x161#10].take (1 + 1)).map decode) fresh = .next t := by
  exact ⟨by decide, _, execAll_eq _ _⟩

/-- States with the invariant that step: on a byte, and on the `INIT` after a digest. -/
theorem witness_StepKeepsTheInvariant :
    (∃ t, State.Inv { holding (seqBytes 63) with port := [0x13f] } ∧
      step { holding (seqBytes 63) with port := [0x13f] } = .next t) ∧
    ∃ t, State.Inv { finished with port := [0x000] } ∧ step { finished with port := [0x000] } = .next t := by
  refine ⟨⟨_, ⟨by decide, by decide, by decide, fun _ => by decide, fun _ => ?_, nofun⟩, step_cons rfl⟩,
    ⟨_, ⟨by decide, by decide, by decide, nofun, nofun, fun _ => ?_⟩, step_cons rfl⟩⟩
  · show ∀ a, a < 63 → _
    decide +kernel
  · show ∀ a, a < 32 → _
    decide +kernel

theorem witness_HaltedEngineIgnoresEveryToken :
    halted.err = true ∧ halted.port = 0x000 :: [0x161] := by decide

/-- The ends of the three reserved ranges, on an engine in each phase. -/
theorem witness_ReservedTokenRaisesIllegalCommand :
    (∀ c ∈ [0x001#10, 0x0ff#10, 0x201#10, 0x2ff#10, 0x300#10, 0x3ff#10], reservedToken c) ∧
    idle.err = false ∧ fresh.err = false ∧ finished.err = false := by decide

theorem witness_EveryReservedRowCompletes : (holding [0x61]).err = false := by decide

theorem witness_CommandBeforeInitFaults : idle.err = false ∧ idle.phase = .uninit := by decide

theorem witness_CommandAfterFinalizeFaults : finished.err = false ∧ finished.phase = .consumed := by decide

/-- Every clause at the ends of its range of tokens. -/
theorem witness_ChecksAreInOrder :
    halted.err = true ∧
    (idle.err = false ∧ reservedToken 0x2ff) ∧
    (idle.err = false ∧ (0x100 ≤ (0x100#10).toNat ∧ (0x100#10).toNat ≤ 0x1FF) ∧ idle.phase = .uninit) ∧
    (finished.err = false ∧ (0x100 ≤ (0x1ff#10).toNat ∧ (0x1ff#10).toNat ≤ 0x1FF) ∧
      finished.phase = .consumed) := by decide

theorem witness_FaultEntryIsPrecise :
    ∃ t, fresh.err = false ∧ exec (.reservedOp3 0xa5) fresh = .next t ∧ t.err = true := by
  exact ⟨raise .illegalCommand fresh, by decide, rfl, rfl⟩

theorem witness_OnlyMisuseSetsErr : fresh.err = false ∧ finished.err = false := by decide

theorem witness_OnlyResetLeavesTheHaltedState :
    (∃ t, halted.err = true ∧ step halted = .next t) ∧
    (fresh.draws = idle.draws ∧ fresh.port = idle.port ∧ fresh ≠ idle) := by
  exact ⟨⟨_, by decide, step_cons rfl⟩, by decide⟩

/-- Valid and invalid use both occur. -/
theorem witness_ValidUseNeverFaults :
    idle.err = false ∧ validUse idle.phase [.init, .wbyte 0x61, .finalize, .init, .init] = true ∧
    validUse idle.phase [.init, .finalize, .finalize] = false ∧
    validUse idle.phase [.wbyte 0x61] = false ∧ validUse fresh.phase [.reservedOp0B0] = false := by decide

theorem witness_InitStartsAMessage : idle.err = false ∧ fresh.err = false ∧ finished.err = false := by decide

theorem witness_InitForgetsThePast :
    (holding (seqBytes 5)).err = false ∧ finished.err = false ∧ holding (seqBytes 5) ≠ finished := by decide

theorem witness_InitFrame : ∃ t, exec .init finished = .next t := ⟨_, rfl⟩

/-- The fill counts where the clauses meet, and the states of the fault clauses. -/
theorem witness_WbyteAppendsAByte :
    (fresh.err = false ∧ fresh.phase = .active ∧ fresh.nbuf.val = 0) ∧
    ((holding (seqBytes 62)).err = false ∧ (holding (seqBytes 62)).phase = .active ∧
      (holding (seqBytes 62)).nbuf.val = 62) ∧
    ((holding (seqBytes 63)).err = false ∧ (holding (seqBytes 63)).phase = .active ∧
      (holding (seqBytes 63)).nbuf.val = 63) ∧
    (idle.err = false ∧ idle.phase = .uninit) ∧ (finished.err = false ∧ finished.phase = .consumed) ∧
    halted.err = true := by decide +kernel

/-- A frame witness for each clause: in `ACTIVE` below 63, outside `ACTIVE`, and halted. -/
theorem witness_WbyteFrame :
    (∃ t, exec (.wbyte 0x61) fresh = .next t ∧ fresh.nbuf.val ≠ 63) ∧
    (∃ t, exec (.wbyte 0x61) finished = .next t ∧ finished.phase ≠ .active) ∧
    ∃ t, exec (.wbyte 0x61) halted = .next t ∧ halted.err = true := by
  exact ⟨⟨_, exec_eq _ _, by decide⟩, ⟨_, exec_eq _ _, by decide⟩, ⟨_, exec_eq _ _, by decide⟩⟩

theorem witness_LenCountsEveryByte :
    let s := { holding (seqBytes 63) with len := 0xffffffffffffffff }
    s.err = false ∧ s.phase = .active := by decide

theorem witness_WriteIsItsBeats :
    (holding (seqBytes 60)).err = false ∧ (holding (seqBytes 60)).phase = .active ∧
    ∃ t, execAll (assembleWrite ((seqBytes 70).take 66)) (holding (seqBytes 60)) = .next t := by
  exact ⟨by decide, by decide, _, execAll_eq _ _⟩

theorem witness_ClosedFormAfterWriting :
    [[0x61], [], [0x62, 0x63]].flatten = ([0x61, 0x62, 0x63] : List Byte) ∧
    ([0x61, 0x62, 0x63] : List Byte).length < 2 ^ 64 ∧ finished.err = false := by decide

/-- Two engines that differ, with the same `H` and the same block. -/
theorem witness_CompressReadsBlockWritesH :
    (holding (seqBytes 64)).h = { finished with buf := cellsFrom 0 (seqBytes 64) }.h ∧
    (∀ a, a < 64 → bufByte (holding (seqBytes 64)) a =
      bufByte { finished with buf := cellsFrom 0 (seqBytes 64) } a) ∧
    holding (seqBytes 64) ≠ { finished with buf := cellsFrom 0 (seqBytes 64) } := by decide +kernel

/-- `FINALIZE` on both sides of the limit 55. -/
theorem witness_FinalizeWritesTheDigest :
    ((holding (seqBytes 55)).err = false ∧ (holding (seqBytes 55)).phase = .active ∧
      (holding (seqBytes 55)).nbuf.val ≤ 55) ∧
    ((holding (seqBytes 56)).err = false ∧ (holding (seqBytes 56)).phase = .active ∧
      ¬ (holding (seqBytes 56)).nbuf.val ≤ 55) := by decide +kernel

theorem witness_FinalizeLeavesFreeValues : fresh.err = false ∧ fresh.phase = .active := by decide

theorem witness_FinalizeOutsideActive :
    (idle.err = false ∧ idle.phase = .uninit) ∧ (finished.err = false ∧ finished.phase = .consumed) ∧
    halted.err = true := by decide

theorem witness_FinalizeFrame :
    (∃ t, exec .finalize fresh = .next t ∧ fresh.err = false ∧ fresh.phase = .active) ∧
    (∃ t, exec .finalize idle = .next t ∧ idle.phase ≠ .active) ∧
    ∃ t, exec .finalize halted = .next t ∧ halted.err = true := by
  exact ⟨⟨_, exec_eq _ _, by decide⟩, ⟨_, exec_eq _ _, by decide⟩, ⟨_, exec_eq _ _, by decide⟩⟩

/-- Lengths on both sides of the limit 55, and a competing length that meets the minimum's hypotheses. -/
theorem witness_PaddedMessageLength :
    (seqBytes 55).length < 2 ^ 61 ∧ (seqBytes 55).length % 64 ≤ 55 ∧ ¬ (seqBytes 56).length % 64 ≤ 55 ∧
    128 % 64 = 0 ∧ (seqBytes 55).length + 9 ≤ 128 := by decide

theorem witness_DigestIsSha256 :
    (seqBytes 3).length < 2 ^ 61 ∧ finished.err = false ∧
    [[0x00], [], [0x01, 0x02]].flatten = seqBytes 3 := by decide

theorem witness_DigestDependsOnTheMessageOnly :
    ([[0x61], [0x62, 0x63]] : List (List Byte)).flatten = [[0x61, 0x62], [], [0x63]].flatten ∧
    idle.err = false ∧ finished.err = false ∧ idle ≠ finished := by decide

/-- Two engines in `ACTIVE` that agree on what the spec defines and differ above `NBUF`, in `OUT` and in the free
values. -/
theorem witness_NothingUnspecifiedIsRead :
    let s := { holding (seqBytes 3) with buf := cellsFrom 0 (seqBytes 9) }
    let s' := { holding (seqBytes 3) with out := cellsFrom 0 (seqBytes 32), draws := 5 }
    s.SameDefined s' ∧ s ≠ s' := by
  refine ⟨⟨rfl, rfl, rfl, fun _ => rfl, fun _ => rfl, fun _ => rfl, fun _ => ?_, nofun⟩, by decide⟩
  show ∀ a, a < 3 → _
  decide +kernel

theorem witness_DigestPersists :
    ¬ (Instr.wbyte 0x61 = .finalize ∧ fresh.phase = .active ∧ fresh.err = false) ∧
    ¬ (Instr.finalize = .finalize ∧ finished.phase = .active ∧ finished.err = false) ∧
    ¬ (Instr.finalize = .finalize ∧ { halted with phase := .active }.phase = .active ∧ halted.err = false) := by
  decide

theorem witness_StatusLayout : State.reset.Inv ∧ State.reset.err = false :=
  ⟨⟨rfl, rfl, by decide, nofun, nofun, nofun⟩, rfl⟩

/-- The bounds of the index hypotheses: the last word, byte, bit and rotation. -/
theorem witness_Bounds :
    15 < 16 ∧ 63 < 64 ∧ (16 ≤ 16 ∧ 16 < 64) ∧ 31 < 32 ∧ (0 < 1 ∧ 31 < 32) ∧ (55 < 56 ∨ 64 ≤ 55) ∧
    (64 < 56 ∨ 64 ≤ 64) ∧ 7 < 8 := by decide

end Sys2Proof.Tests
end

section
/-!
PROOF. O6: the step on the token that the command port presents next (spec/00_scope.md R11, spec/30_encoding.md R56).
-/

namespace Sys2Proof.Machine

/-- A step accepts the next token and runs the instruction it decodes to (R56). -/
theorem step_eq_exec_decode {s : State} {c : Token} {rest : List Token} (h : s.port = c :: rest) :
    step s = exec (decode c) { s with port := rest } := by
  simp only [step, h]

theorem tokenOfBits_eq_ok {nbits w : Nat} {c : Token} (h : w % 2 ^ nbits = c.toNat) :
    tokenOfBits nbits w = .ok c := by
  have hc : c.toNat < 1024 := c.isLt
  simp only [tokenOfBits, h, if_pos hc, BitVec.ofNat_toNat, BitVec.setWidth_eq]

theorem withFetchWord_eq {nbits w : Nat} {c : Token} (h : w % 2 ^ nbits = c.toNat) (s : State) :
    s.withFetchWord nbits w = { s with port := c :: s.port } := by
  simp only [State.withFetchWord, tokenOfBits_eq_ok h]

/-- Settles O6: each clause is the lemma on what the port presents; the token that `withFetchWord` places stands first on
the port, and accepting it leaves the port as it was. -/
theorem stepRunsTheDecodedToken : Obligations.StepRunsTheDecodedToken := by
  refine ⟨fun s c rest h => step_eq_exec_decode h, fun s h => step_nil h, fun s nbits w c h => ?_⟩
  rw [withFetchWord_eq h]
  exact step_eq_exec_decode rfl

end Sys2Proof.Machine
end

section
/-!
PROOF. O37: the arithmetic primitives as functions of the numbers (spec/00_scope.md R8).
-/

namespace Sys2Proof.Machine

/-- The low `n` bits of a 32-bit number, moved to the top: what a left shift by `32 - n` keeps. -/
theorem shiftLeft_mod_eq_low_bits (a : Nat) {n : Nat} (hn : n ≤ 32) :
    a <<< (32 - n) % 2 ^ 32 = (a % 2 ^ n) <<< (32 - n) := by
  have hpow : 2 ^ 32 = 2 ^ n * 2 ^ (32 - n) := by rw [← Nat.pow_add, Nat.add_sub_cancel' hn]
  rw [Nat.shiftLeft_eq, Nat.shiftLeft_eq, hpow, Nat.mul_mod_mul_right]

theorem toNat_shr (x : Word) (n : Nat) : (shr x n).toNat = x.toNat / 2 ^ n := by
  rw [shr, BitVec.toNat_ushiftRight, Nat.shiftRight_eq_div_pow]

/-- `rotr` is `x[n-1:0] ++ x[31:n]`: its two parts share no bit, so their "or" is their sum (R8). -/
theorem toNat_rotr (x : Word) {n : Nat} (hn : n < 32) :
    (rotr x n).toNat = x.toNat % 2 ^ n * 2 ^ (32 - n) + x.toNat / 2 ^ n := by
  have high : x.toNat / 2 ^ n < 2 ^ (32 - n) := by
    rw [Nat.div_lt_iff_lt_mul (Nat.two_pow_pos n), ← Nat.pow_add, Nat.sub_add_cancel hn.le]
    exact x.isLt
  rw [rotr, BitVec.toNat_rotateRight, Nat.mod_eq_of_lt hn, shiftLeft_mod_eq_low_bits _ hn.le,
    Nat.shiftRight_eq_div_pow, Nat.or_comm, ← Nat.shiftLeft_add_eq_or_of_lt high, Nat.shiftLeft_eq]

theorem toNat_shl64 (x : BitVec 64) (n : Nat) : (shl64 x n).toNat = x.toNat * 2 ^ n % 2 ^ 64 := by
  rw [shl64, BitVec.toNat_shiftLeft, Nat.shiftLeft_eq]

/-- Settles O37: the sums are those of `BitVec`; rotation and shifts are the lemmas above. -/
theorem arithmeticPrimitives : Obligations.ArithmeticPrimitives :=
  ⟨BitVec.toNat_add, BitVec.toNat_add, fun x n _ hn => ⟨toNat_rotr x hn, toNat_shr x n⟩, toNat_shl64⟩

end Sys2Proof.Machine
end

section
/-!
PROOF. O43: the registers that `FINALIZE` leaves `UNSPEC` (spec/10_state.md R32, spec/43_finalize.md R117).
-/

namespace Sys2Proof.Machine

theorem unspecWords_getElem (n : Nat) (i : Fin 8) : (unspecWords n)[i] = Config.unspecH n i.val := by
  fin_cases i <;> rfl

@[simp] theorem finishMessage_h (s : State) : (finishMessage s).h = unspecWords (s.draws + 1) :=
  congrArg (fun n => unspecWords (n + 1)) (padLast_draws s)
@[simp] theorem finishMessage_nbuf (s : State) : (finishMessage s).nbuf = Config.unspecNbuf (s.draws + 1) :=
  congrArg (fun n => Config.unspecNbuf (n + 1)) (padLast_draws s)
@[simp] theorem finishMessage_len (s : State) : (finishMessage s).len = Config.unspecLen (s.draws + 1) :=
  congrArg (fun n => Config.unspecLen (n + 1)) (padLast_draws s)

/-- `BUF` lists no stored byte after `FINALIZE`, so that every read gives the free value (R117). -/
theorem bufByte_finishMessage (s : State) (a : Nat) :
    bufByte (finishMessage s) a = Config.unspecBuf (s.draws + 1) a := by
  rw [bufByte, finishMessage_buf, finishMessage_draws]
  rfl

theorem exec_finalize_active {s : State} (h : s.err = false) (hp : s.phase = .active) :
    exec .finalize s = .next (finishMessage s) := by
  rw [exec_after, after_finalize h hp]

/-- Settles O43: the next state is `finishMessage s`, whose registers are the draws of event `s.draws + 1`. -/
theorem finalizeLeavesFreeValues : Obligations.FinalizeLeavesFreeValues := by
  intro s h hp
  refine ⟨finishMessage s, exec_finalize_active h hp, finishMessage_draws s, fun i => ?_,
    bufByte_finishMessage s, finishMessage_nbuf s, finishMessage_len s⟩
  rw [finishMessage_h, unspecWords_getElem]

end Sys2Proof.Machine
end

section
/-!
PROOF. O10: every step keeps the invariant of the engine at rest (spec/10_state.md R24, R27, R28, spec/20_memory.md R35,
spec/43_finalize.md R116). Each of the four things an effect can do keeps it; a step is one effect or a wait.
-/

namespace Sys2Proof.Machine

/-- What a step can lead to: with no token presented the state itself, else the state after the next token, with that
token taken from the port. -/
theorem step_cases {s t : State} (h : step s = .next t) :
    (s.port = [] ∧ t = s) ∨
      ∃ c rest, s.port = c :: rest ∧ t = { after s (decode c) with port := rest } := by
  cases hp : s.port with
  | nil =>
    rw [step_nil hp] at h
    cases h
    exact .inl ⟨rfl, rfl⟩
  | cons c rest =>
    rw [step_cons hp] at h
    cases h
    exact .inr ⟨c, rest, rfl, rfl⟩

/-- The invariant says nothing about the tokens that the host presents. -/
theorem inv_withPort {s : State} (h : s.Inv) (p : List Token) : State.Inv { s with port := p } :=
  ⟨h.buf_wf, h.out_wf, h.cause_none, h.nbuf_len, h.buf_defined, h.out_defined⟩

/-- Fault entry writes `ERR` and `CAUSE` together (R131). -/
theorem inv_raise {s : State} (h : s.Inv) (x : EngineFault) : (raise x s).Inv :=
  ⟨h.buf_wf, h.out_wf, by simp, h.nbuf_len, h.buf_defined, h.out_defined⟩

/-- `INIT` enters `ACTIVE` with `NBUF = LEN = 0`, so that no byte of `BUF` has to be stored (R73). -/
theorem inv_startMessage {s : State} (h : s.Inv) : (startMessage s).Inv where
  buf_wf := h.buf_wf
  out_wf := h.out_wf
  cause_none := h.cause_none
  nbuf_len _ := rfl
  buf_defined _ := fun _ ha => absurd ha (Nat.not_lt_zero _)
  out_defined := nofun

/-- A byte stored at the first free address adds that address to those held. -/
theorem holdsBelow_write {m : Memory} {n : Nat} (h : m.holdsBelow n) (d : Byte) :
    (m.write n d).holdsBelow (n + 1) := by
  intro a ha
  rw [byte?_write]
  split
  · rfl
  · exact h a (by omega)

/-- `WBYTE` in `ACTIVE` counts in `NBUF` and in `LEN` alike, and stores at `NBUF` (R81, R82). -/
theorem inv_appendByte {s : State} (h : s.Inv) (hp : s.phase = .active) (d : Byte) : (appendByte d s).Inv where
  buf_wf := by rw [appendByte_buf]; exact wf_write _ d s.nbuf.isLt h.buf_wf
  out_wf := by rw [appendByte_out]; exact h.out_wf
  cause_none := by rw [appendByte_cause, appendByte_err]; exact h.cause_none
  nbuf_len _ := by
    have hn := h.nbuf_len hp
    have one : (1 : BitVec 64).toNat = 1 := rfl
    rw [appendByte_nbuf, appendByte_len, add64, BitVec.toNat_add, one]
    omega
  buf_defined _ := by
    have hb := holdsBelow_write (h.buf_defined hp) d
    rw [appendByte_buf, appendByte_nbuf]
    exact fun a ha => hb a (Nat.lt_of_lt_of_le ha (Nat.mod_le _ _))
  out_defined hc := by rw [appendByte_phase, hp] at hc; cases hc

/-- `FINALIZE` in `ACTIVE` empties `BUF` and stores all 32 bytes of `OUT` (R116, R117). -/
theorem inv_finishMessage {s : State} (h : s.Inv) : (finishMessage s).Inv where
  buf_wf := wf_nil 64
  out_wf := by
    rw [finishMessage_out]
    exact wf_writeBytes 0 _ (by rw [length_bytesOfWords]) h.out_wf
  cause_none := by rw [finishMessage_cause, finishMessage_err]; exact h.cause_none
  nbuf_len := nofun
  buf_defined := nofun
  out_defined _ := fun _ ha => by rw [byte?_finishMessage_out s ha]; rfl

theorem inv_effect {s : State} (h : s.Inv) (i : Instr) : (effect i s).Inv := by
  obtain ⟨x, e, -⟩ | ⟨-, e⟩ | ⟨d, -, hp, e⟩ | ⟨-, -, e⟩ := effect_cases i s
  · rw [e]; exact inv_raise h x
  · rw [e]; exact inv_startMessage h
  · rw [e]; exact inv_appendByte h hp d
  · rw [e]; exact inv_finishMessage h

theorem inv_after {s : State} (h : s.Inv) (i : Instr) : (after s i).Inv := by
  unfold after
  split
  · exact h
  · exact inv_effect h i

/-- Settles O10: a step waits, or it is the effect of one token, which keeps the invariant. -/
theorem stepKeepsTheInvariant : Obligations.StepKeepsTheInvariant := by
  intro s t h hstep
  obtain ⟨-, rfl⟩ | ⟨c, rest, -, rfl⟩ := step_cases hstep
  · exact h
  · exact inv_withPort (inv_after h (decode c)) rest

end Sys2Proof.Machine
end

section
/-!
PROOF. O7: `exec` and `step` are total (spec/10_state.md R26, spec/60_exceptions.md R131, R132).
-/

namespace Sys2Proof.Machine

/-- Settles O7: the next state is `after s i`, and for a step the state itself or the one after the next token. -/
theorem noTokenStopsTheEngine : Obligations.NoTokenStopsTheEngine := by
  refine ⟨fun i s => ⟨after s i, exec_after i s⟩, fun s => ?_⟩
  cases hp : s.port with
  | nil => exact ⟨s, step_nil hp⟩
  | cons c rest => exact ⟨_, step_cons hp⟩

end Sys2Proof.Machine
end

section
/-!
PROOF. O19: the tokens that set `ERR` (spec/10_state.md R26, spec/60_exceptions.md R126, R136).
-/

namespace Sys2Proof.Machine

/-- A token that is not reserved is one of the three commands (R61 to R64). -/
theorem command_of_not_reserved {i : Instr} (h : i.isReserved ≠ true) :
    i = .init ∨ (∃ d, i = .wbyte d) ∨ i = .finalize := by
  cases i with
  | init => exact .inl rfl
  | wbyte d => exact .inr (.inl ⟨d, rfl⟩)
  | finalize => exact .inr (.inr rfl)
  | _ => exact absurd rfl h

/-- On an engine with `ERR = 0` the effect sets `ERR` for misuse only (R126). -/
theorem effect_err_iff (i : Instr) {s : State} (h : s.err = false) :
    (effect i s).err = true ↔
      i.isReserved = true ∨ (s.phase ≠ .active ∧ ((∃ d, i = .wbyte d) ∨ i = .finalize)) := by
  obtain ⟨x, e, hinit, misuse⟩ | ⟨rfl, e⟩ | ⟨d, rfl, hp, e⟩ | ⟨rfl, hp, e⟩ := effect_cases i s
  · refine iff_of_true (by rw [e, raise_err]) ?_
    by_cases hr : i.isReserved = true
    · exact .inl hr
    · exact .inr ⟨misuse.resolve_left hr, (command_of_not_reserved hr).resolve_left hinit⟩
  · simp [e, h, Instr.isReserved]
  · simp [e, h, hp, Instr.isReserved]
  · simp [e, h, hp, Instr.isReserved]

/-- Settles O19: an engine with `ERR = 0` goes to the effect of the token. -/
theorem onlyMisuseSetsErr : Obligations.OnlyMisuseSetsErr :=
  fun i s h => ⟨effect i s, exec_running h i, effect_err_iff i h⟩

end Sys2Proof.Machine
end

section
/-!
PROOF. O20: the next `PHASE` of every token in every state (spec/10_state.md R26).
-/

namespace Sys2Proof.Machine

/-- `PHASE` after the effect of a token: `INIT` gives `ACTIVE`, `FINALIZE` in `ACTIVE` gives `CONSUMED`, and any other
token, or `FINALIZE` elsewhere, keeps it. -/
theorem effect_phase_cases (i : Instr) (s : State) :
    (i = .init ∧ (effect i s).phase = .active) ∨
      (i = .finalize ∧ s.phase = .active ∧ (effect i s).phase = .consumed) ∨
      (i ≠ .init ∧ (i = .finalize → s.phase ≠ .active) ∧ (effect i s).phase = s.phase) := by
  obtain ⟨x, e, hinit, misuse⟩ | ⟨rfl, e⟩ | ⟨d, rfl, hp, e⟩ | ⟨rfl, hp, e⟩ := effect_cases i s
  · refine .inr (.inr ⟨hinit, ?_, by rw [e, raise_phase]⟩)
    rintro rfl
    exact misuse.resolve_left nofun
  · exact .inl ⟨rfl, by rw [e, startMessage_phase]⟩
  · exact .inr (.inr ⟨nofun, nofun, by rw [e, appendByte_phase]⟩)
  · exact .inr (.inl ⟨rfl, hp, by rw [e, finishMessage_phase]⟩)

/-- Settles O20: a halted engine keeps its phase; on a running one each of the three cases above gives its row. -/
theorem phaseFollowsTheTable : Obligations.PhaseFollowsTheTable := by
  intro i s
  refine ⟨after s i, exec_after i s, ?_⟩
  cases h : s.err with
  | true => simp [after_halted h]
  | false =>
    rw [after_running h]
    obtain ⟨rfl, e⟩ | ⟨rfl, hp, e⟩ | ⟨hinit, hfin, e⟩ := effect_phase_cases i s
    · simp [e]
    · simp [e, hp]
    · by_cases hi : i = .finalize
      · subst hi
        simp [e, hfin rfl]
      · simp [e, hi, hinit]

end Sys2Proof.Machine
end

section
/-!
PROOF. O49: no instruction reads an unspecified value (spec/10_state.md R29, R33). Every effect takes two states that
agree on what the spec defines in them to two such states.
-/

namespace Sys2Proof.Machine

theorem sameDefined_raise {s s' : State} (h : s.SameDefined s') (x : EngineFault) :
    (raise x s).SameDefined (raise x s') :=
  ⟨h.phase, rfl, rfl, h.h, h.nbuf, h.len, h.buf, h.out⟩

/-- `INIT` defines `H`, `NBUF` and `LEN` without reading the state (R73, R74). -/
theorem sameDefined_startMessage {s s' : State} (h : s.SameDefined s') :
    (startMessage s).SameDefined (startMessage s') where
  phase := rfl
  err := h.err
  cause := h.cause
  h _ := rfl
  nbuf _ := rfl
  len _ := rfl
  buf _ := fun _ ha => absurd ha (Nat.not_lt_zero _)
  out := nofun

/-- `WBYTE` leaves in `BUF` what the store of its byte leaves there; the compression writes no byte (R83, R90). -/
theorem bufByte_appendByte_eq_storeByte (d : Byte) (s : State) (a : Nat) :
    bufByte (appendByte d s) a = bufByte (storeByte d s) a :=
  (bufByte_appendByte d s a).trans (bufByte_storeByte d s a).symm

/-- After the store of a byte at `NBUF` the bytes up to and with `NBUF` agree. -/
theorem bufByte_storeByte_congr {s s' : State} (h : s.SameDefined s') (hp : s.phase = .active) (d : Byte) {a : Nat}
    (ha : a ≤ s.nbuf.val) : bufByte (storeByte d s) a = bufByte (storeByte d s') a := by
  rw [bufByte_storeByte, bufByte_storeByte, ← h.nbuf hp]
  split
  · rfl
  · exact h.buf hp a (by omega)

/-- `WBYTE` compresses only when the byte it stores is the last of the block, so that the whole block is defined
(R80, R83). -/
theorem appendByte_h_congr {s s' : State} (h : s.SameDefined s') (hp : s.phase = .active) (d : Byte) :
    (appendByte d s).h = (appendByte d s').h := by
  rw [appendByte_h, appendByte_h, ← h.nbuf hp]
  split
  case isTrue full =>
    refine compress_congr (h.h hp) (bufBlock_congr fun a ha => bufByte_storeByte_congr h hp d ?_)
    rw [full]
    exact Nat.le_of_lt_succ ha
  case isFalse => exact h.h hp

theorem sameDefined_appendByte {s s' : State} (h : s.SameDefined s') (hp : s.phase = .active) (d : Byte) :
    (appendByte d s).SameDefined (appendByte d s') where
  phase := by rw [appendByte_phase, appendByte_phase, h.phase]
  err := by rw [appendByte_err, appendByte_err, h.err]
  cause := by rw [appendByte_cause, appendByte_cause, h.cause]
  h _ := appendByte_h_congr h hp d
  nbuf _ := Fin.ext (by rw [appendByte_nbuf, appendByte_nbuf, h.nbuf hp])
  len _ := by rw [appendByte_len, appendByte_len, h.len hp]
  buf _ a ha := by
    rw [appendByte_nbuf] at ha
    rw [bufByte_appendByte_eq_storeByte, bufByte_appendByte_eq_storeByte]
    exact bufByte_storeByte_congr h hp d (Nat.le_of_lt_succ (Nat.lt_of_lt_of_le ha (Nat.mod_le _ _)))
  out hc := by rw [appendByte_phase, hp] at hc; cases hc

theorem finishMessage_phase_ne_active (s : State) : (finishMessage s).phase ≠ .active := nofun

/-- The digest depends on `H`, `NBUF`, `LEN` and `BUF[0..NBUF-1]` only, all of them defined in `ACTIVE` (R29, R116). -/
theorem sameDefined_finishMessage {s s' : State} (h : s.SameDefined s') (hp : s.phase = .active) :
    (finishMessage s).SameDefined (finishMessage s') where
  phase := by rw [finishMessage_phase, finishMessage_phase]
  err := by rw [finishMessage_err, finishMessage_err, h.err]
  cause := by rw [finishMessage_cause, finishMessage_cause, h.cause]
  h hc := absurd hc (finishMessage_phase_ne_active s)
  nbuf hc := absurd hc (finishMessage_phase_ne_active s)
  len hc := absurd hc (finishMessage_phase_ne_active s)
  buf hc := absurd hc (finishMessage_phase_ne_active s)
  out _ a ha := by
    have words : finalWords s = finalWords s' := finalWords_congr (h.h hp) (h.nbuf hp) (h.len hp) (h.buf hp)
    rw [outByte_finishMessage s ha, outByte_finishMessage s' ha, finalWords_eq, finalWords_eq, words]

/-- The check of the phase reads `PHASE` only, which is defined in every state (R130). -/
theorem sameDefined_whenActive {s s' : State} {f : State → State} (h : s.SameDefined s')
    (hf : s.phase = .active → (f s).SameDefined (f s')) : (whenActive f s).SameDefined (whenActive f s') := by
  cases hp : s.phase with
  | uninit =>
    rw [whenActive_uninit hp, whenActive_uninit (h.phase ▸ hp)]
    exact sameDefined_raise h _
  | active =>
    rw [whenActive_active hp, whenActive_active (h.phase ▸ hp)]
    exact hf hp
  | consumed =>
    rw [whenActive_consumed hp, whenActive_consumed (h.phase ▸ hp)]
    exact sameDefined_raise h _

theorem sameDefined_effect {s s' : State} (h : s.SameDefined s') (i : Instr) :
    (effect i s).SameDefined (effect i s') := by
  cases i with
  | init => exact sameDefined_startMessage h
  | wbyte d => exact sameDefined_whenActive h fun hp => sameDefined_appendByte h hp d
  | finalize => exact sameDefined_whenActive h fun hp => sameDefined_finishMessage h hp
  | _ => exact sameDefined_raise h .illegalCommand

theorem sameDefined_after {s s' : State} (h : s.SameDefined s') (i : Instr) :
    (after s i).SameDefined (after s' i) := by
  unfold after
  rw [← h.err]
  split
  · exact h
  · exact sameDefined_effect h i

/-- Settles O49: both states step to the state after the instruction. -/
theorem nothingUnspecifiedIsRead : Obligations.NothingUnspecifiedIsRead :=
  fun i s s' h => ⟨after s i, after s' i, exec_after i s, exec_after i s', sameDefined_after h i⟩

end Sys2Proof.Machine
end

section
/-!
PROOF. O11, O53: the state that a hardware reset leaves (spec/10_state.md R31, spec/70_reset_and_hazards.md R145).
-/

namespace Sys2Proof.Machine

/-- Both memories are empty, no fault is recorded, and `UNINIT` asks for nothing more. -/
theorem inv_afterReset (n : Nat) (p : List Token) : (State.afterReset n p).Inv where
  buf_wf := wf_nil 64
  out_wf := wf_nil 32
  cause_none := iff_of_true rfl rfl
  nbuf_len := nofun
  buf_defined := nofun
  out_defined := nofun

/-- Settles O11: both states are reset states, of some event and port. -/
theorem resetHasTheInvariant : Obligations.ResetHasTheInvariant :=
  ⟨inv_afterReset 0 [], fun s => inv_afterReset (s.draws + 1) s.port⟩

theorem status_afterReset (n : Nat) (p : List Token) : status (State.afterReset n p) = 0x00 := by
  rw [status, afterReset_cause, afterReset_err, afterReset_phase]
  rfl

theorem afterReset_h_getElem (n : Nat) (p : List Token) (i : Fin 8) :
    (State.afterReset n p).h[i] = Config.unspecH n i.val :=
  unspecWords_getElem n i

/-- `BUF` lists no stored byte after a reset, so that every read gives the free value. -/
theorem bufByte_afterReset (n : Nat) (p : List Token) (a : Nat) :
    bufByte (State.afterReset n p) a = Config.unspecBuf n a := by
  rw [bufByte, afterReset_buf, byte?_nil, afterReset_draws, Option.getD_none]

/-- `OUT` lists no stored byte after a reset, so that every read gives the free value. -/
theorem outByte_afterReset (n : Nat) (p : List Token) (a : Nat) :
    outByte (State.afterReset n p) a = Config.unspecOut n a := by
  rw [outByte, afterReset_out, byte?_nil, afterReset_draws, Option.getD_none]

/-- Settles O53: each register of the reset state of event `s.draws + 1`. -/
theorem resetState : Obligations.ResetState :=
  ⟨status_afterReset 0 [], afterReset_port 0 [], fun s =>
    ⟨status_afterReset _ s.port, afterReset_port _ s.port, afterReset_draws _ s.port,
      afterReset_h_getElem _ s.port, bufByte_afterReset _ s.port, outByte_afterReset _ s.port, rfl, rfl⟩⟩

end Sys2Proof.Machine
end

section
/-!
PROOF. O51: the fields of `STATUS` (spec/10_state.md R23 to R25, spec/60_exceptions.md R126).
-/

namespace Sys2Proof.Machine

/-- The fields of a status byte put together from its parts, for all 32 of them (R24). -/
theorem statusByte_fields (c : BitVec 2) (e : Bool) (p : BitVec 2) :
    let w : BitVec 8 := 0#3 ++ c ++ BitVec.ofBool e ++ p
    w.extractLsb' 0 2 = p ∧ w.getLsbD 2 = e ∧ w.extractLsb' 3 2 = c ∧ w.extractLsb' 5 3 = 0#3 := by
  revert c e p
  decide

/-- The fields of `STATUS` are the codes of `PHASE`, `ERR` and `CAUSE` (R24). -/
theorem status_fields (s : State) :
    (status s).extractLsb' 0 2 = phaseCode s.phase ∧ (status s).getLsbD 2 = s.err ∧
      (status s).extractLsb' 3 2 = causeCode s.cause ∧ (status s).extractLsb' 5 3 = 0#3 :=
  statusByte_fields (causeCode s.cause) s.err (phaseCode s.phase)

/-- Settles O51: the codes are those of R23 and R126; the invariant makes `CAUSE` 0 while `ERR` is 0. -/
theorem statusLayout : Obligations.StatusLayout := by
  intro s
  obtain ⟨hphase, herr, hcause, htop⟩ := status_fields s
  refine ⟨?_, herr, ?_, htop, fun hinv h => ?_⟩
  · rw [hphase]; cases s.phase <;> rfl
  · rw [hcause]; rcases s.cause with _ | _ | _ | _ <;> rfl
  · rw [hcause, hinv.cause_none.2 h]; rfl

end Sys2Proof.Machine
end

section
/-!
PROOF. O40, O41: the byte order of `BUF`, and the 8-byte write seen by the 4-byte reads (spec/20_memory.md R40, R41, R44).
-/

namespace Sys2Proof.Machine

/-- Inside the 8 bytes written, the most significant byte of the value stands first (R41). -/
theorem bufByte_memWrite8_inside (s : State) (a : Nat) (v : BitVec 64) {k : Nat} (hk : k < 8) :
    bufByte (memWrite8 s a v) (a + k) = v.extractLsb' (56 - 8 * k) 8 := by
  rw [bufByte_memWrite8, if_pos (by omega), Nat.add_sub_cancel_left, bytes64_getD v hk]

theorem bufByte_memWrite8_outside (s : State) {a x : Nat} (v : BitVec 64) (h : x < a ∨ a + 8 ≤ x) :
    bufByte (memWrite8 s a v) x = bufByte s x := by
  rw [bufByte_memWrite8, if_neg (by omega)]

/-- Settles O40: the load is the value of its four bytes, the store is read inside and outside its 8 addresses. -/
theorem bufferIsBigEndian : Obligations.BufferIsBigEndian :=
  fun s => ⟨fun _ _ => toNat_be32 _ _ _ _, fun b =>
    ⟨fun _ hk => bufByte_memWrite8_inside s 56 b hk, fun _ ha => bufByte_memWrite8_outside s b ha⟩⟩

/-- Four adjacent bytes of a value, the most significant first, are its 32 bits from the last byte's up. -/
theorem be32_extractLsb' {n : Nat} (x : BitVec n) (i : Nat) :
    be32 (x.extractLsb' (i + 24) 8) (x.extractLsb' (i + 16) 8) (x.extractLsb' (i + 8) 8) (x.extractLsb' i 8) =
      x.extractLsb' i 32 := by
  rw [be32, BitVec.extractLsb'_append_extractLsb'_eq_extractLsb' (by omega),
    BitVec.extractLsb'_append_extractLsb'_eq_extractLsb' (by omega),
    BitVec.extractLsb'_append_extractLsb'_eq_extractLsb' (by omega)]

/-- A 4-byte read that lies within an 8-byte write reads 32 adjacent bits of the value written (R44). -/
theorem memRead4_memWrite8_inside (s : State) {a x : Nat} (v : BitVec 64) (ha : a ≤ x) (hx : x ≤ a + 4) :
    memRead4 (memWrite8 s a v) x = v.extractLsb' (32 - 8 * (x - a)) 32 := by
  have byte : ∀ k, k < 4 →
      bufByte (memWrite8 s a v) (x + k) = v.extractLsb' (32 - 8 * (x - a) + (24 - 8 * k)) 8 := fun k hk => by
    rw [show x + k = a + (x - a + k) by omega, bufByte_memWrite8_inside s a v (by omega),
      show 56 - 8 * (x - a + k) = 32 - 8 * (x - a) + (24 - 8 * k) by omega]
  show be32 (bufByte _ (x + 0)) (bufByte _ (x + 1)) (bufByte _ (x + 2)) (bufByte _ (x + 3)) = _
  rw [byte 0 (by decide), byte 1 (by decide), byte 2 (by decide), byte 3 (by decide)]
  exact be32_extractLsb' v (32 - 8 * (x - a))

/-- The first 16 schedule words are the 4-byte reads of `BUF` (R40, R100). -/
theorem schedule_getD_eq_memRead4 (s : State) {t : Nat} (h : t < 16) :
    (schedule (bufBlock s)).getD t 0 = memRead4 s (4 * t) :=
  schedule_getD_load (bufBlock s) h

/-- Settles O41: the two words are the 4-byte reads at 56 and at 60, the two halves of the 8-byte write at 56. -/
theorem lengthFieldIsTheLastTwoWords : Obligations.LengthFieldIsTheLastTwoWords := by
  intro s b
  exact ⟨(schedule_getD_eq_memRead4 _ (by decide)).trans (memRead4_memWrite8_inside s b (by decide) (by decide)),
    (schedule_getD_eq_memRead4 _ (by decide)).trans (memRead4_memWrite8_inside s b (by decide) (by decide))⟩

end Sys2Proof.Machine
end

section
/-!
PROOF. O1, O2: the decoder and the encoder (spec/30_encoding.md R57, R60, R64, R65). A token is its two fields;
the highest set bit of the data field finds the row of a reserved token.
-/

namespace Sys2Proof

/-! ## The two fields of a token -/

@[simp] theorem opField_tokenOf (op : BitVec 2) (d : Byte) : opField (tokenOf op d) = op :=
  BitVec.extractLsb'_append_eq_left

@[simp] theorem dataField_tokenOf (op : BitVec 2) (d : Byte) : dataField (tokenOf op d) = d := by
  rw [dataField, tokenOf, BitVec.extractLsb'_append_eq_of_add_le (by decide), BitVec.extractLsb'_eq_self]

theorem tokenOf_fields (c : Token) : tokenOf (opField c) (dataField c) = c := by
  rw [opField, dataField, tokenOf, BitVec.extractLsb'_append_extractLsb'_eq_extractLsb' (by decide)]
  exact BitVec.extractLsb'_eq_self

theorem toNat_tokenOf (op : BitVec 2) (d : Byte) : (tokenOf op d).toNat = 0x100 * op.toNat + d.toNat := by
  have hd : d.toNat < 2 ^ 8 := d.isLt
  rw [tokenOf, BitVec.toNat_append, ← Nat.shiftLeft_add_eq_or_of_lt hd, Nat.shiftLeft_eq, Nat.mul_comm]

/-! ## The highest set bit of the data field -/

theorem highestBit_iff {k : Nat} {d : Byte} : highestBit k d = true ↔ d.toNat / 2 ^ k = 1 := by
  rw [highestBit, beq_iff_eq, ← BitVec.toNat_inj, BitVec.toNat_ushiftRight, Nat.shiftRight_eq_div_pow]
  rfl

/-- The bits from the highest set bit up. -/
theorem getLsbD_of_highestBit {k : Nat} {d : Byte} (h : highestBit k d = true) {j : Nat} (hj : k ≤ j) :
    d.getLsbD j = decide (j = k) := by
  obtain ⟨i, rfl⟩ := Nat.exists_eq_add_of_le hj
  have hshift : d >>> k = 1#8 := eq_of_beq h
  rw [← BitVec.getLsbD_ushiftRight, hshift, BitVec.getLsbD_one]
  simp

theorem ne_zero_of_highestBit {k : Nat} {d : Byte} (h : highestBit k d = true) : d ≠ 0#8 := by
  rintro rfl
  simp [highestBit_iff] at h

/-- One level of the search for the highest set bit: bit `k` is set and is the highest, or the value is below it. -/
theorem ite_highestBit {P : Instr → Prop} {d : Byte} {k : Nat} {i j : Instr} (hd : d.toNat < 2 ^ (k + 1))
    (hi : highestBit k d = true → P i) (hj : d.toNat < 2 ^ k → P j) : P (if d.getLsbD k then i else j) := by
  have hq : d.toNat / 2 ^ k < 2 := by rwa [Nat.div_lt_iff_lt_mul (Nat.two_pow_pos k), ← Nat.pow_succ']
  have hbit : d.getLsbD k = decide (d.toNat / 2 ^ k = 1) := by
    rw [BitVec.getLsbD, Nat.testBit_eq_decide_div_mod_eq, Nat.mod_eq_of_lt hq]
  by_cases h : d.toNat / 2 ^ k = 1
  · rw [if_pos (by simp [hbit, h])]
    exact hi (highestBit_iff.2 h)
  · have hzero : d.toNat / 2 ^ k = 0 := Nat.lt_one_iff.1 (Nat.lt_of_le_of_ne (Nat.le_of_lt_succ hq) h)
    rw [if_neg (by simp [hbit, h])]
    exact hj ((Nat.div_eq_zero_iff_lt (Nat.two_pow_pos k)).1 hzero)

theorem eq_one_of_lt_two {d : Byte} (hd : d ≠ 0#8) (h : d.toNat < 2 ^ 1) : d = 1#8 := by
  bv_omega

/-! ## The decoder, by the fields of the token -/

@[simp] theorem decode_tokenOf_wbyte (d : Byte) : decode (tokenOf 0b01#2 d) = .wbyte d := by
  simp [decode]

theorem decode_tokenOf_op0 {d : Byte} (hd : d ≠ 0#8) : decode (tokenOf 0b00#2 d) = reservedRow0 d := by
  simp [decode, hd]

theorem decode_tokenOf_op2 {d : Byte} (hd : d ≠ 0#8) : decode (tokenOf 0b10#2 d) = reservedRow2 d := by
  simp [decode, hd]

@[simp] theorem decode_tokenOf_op3 (d : Byte) : decode (tokenOf 0b11#2 d) = .reservedOp3 d := by
  simp [decode]

@[simp] theorem decode_initToken : decode 0x000#10 = .init := rfl

@[simp] theorem decode_finalizeToken : decode 0x200#10 = .finalize := rfl

/-- Every token is one of the three commands or lies in one of the three reserved ranges, and decodes so (R65). -/
theorem decode_cases (c : Token) :
    (c = 0x000#10 ∧ decode c = .init) ∨
      (∃ d, c = tokenOf 0b01#2 d ∧ decode c = .wbyte d) ∨
      (c = 0x200#10 ∧ decode c = .finalize) ∨
      (∃ d, d ≠ 0#8 ∧ c = tokenOf 0b00#2 d ∧ decode c = reservedRow0 d) ∨
      (∃ d, d ≠ 0#8 ∧ c = tokenOf 0b10#2 d ∧ decode c = reservedRow2 d) ∨
      (∃ d, c = tokenOf 0b11#2 d ∧ decode c = .reservedOp3 d) := by
  have op_cases : ∀ op : BitVec 2, op = 0b00#2 ∨ op = 0b01#2 ∨ op = 0b10#2 ∨ op = 0b11#2 := by decide
  rw [← tokenOf_fields c]
  generalize dataField c = d
  obtain e | e | e | e := op_cases (opField c) <;> rw [e]
  · by_cases hd : d = 0#8
    · subst hd
      exact .inl ⟨rfl, rfl⟩
    · exact .inr (.inr (.inr (.inl ⟨d, hd, rfl, decode_tokenOf_op0 hd⟩)))
  · exact .inr (.inl ⟨d, rfl, decode_tokenOf_wbyte d⟩)
  · by_cases hd : d = 0#8
    · subst hd
      exact .inr (.inr (.inl ⟨rfl, rfl⟩))
    · exact .inr (.inr (.inr (.inr (.inl ⟨d, hd, rfl, decode_tokenOf_op2 hd⟩))))
  · exact .inr (.inr (.inr (.inr (.inr ⟨d, rfl, decode_tokenOf_op3 d⟩))))

/-! ## Encoding what was decoded -/

/-- `i` is reserved, stands for a token, and that token is `c`. -/
structure ReservedRowOf (c : Token) (i : Instr) : Prop where
  isReserved : i.isReserved = true
  wellFormed : i.wellFormed = true
  encode_eq : encode i = c

/-- The search through `op = 0b00` ends in a row whose range holds the data field (R60). -/
theorem reservedRow0_spec {d : Byte} (hd : d ≠ 0#8) : ReservedRowOf (tokenOf 0b00#2 d) (reservedRow0 d) :=
  ite_highestBit d.isLt (⟨rfl, ·, rfl⟩) fun lt7 =>
  ite_highestBit lt7 (⟨rfl, ·, rfl⟩) fun lt6 =>
  ite_highestBit lt6 (⟨rfl, ·, rfl⟩) fun lt5 =>
  ite_highestBit lt5 (⟨rfl, ·, rfl⟩) fun lt4 =>
  ite_highestBit lt4 (⟨rfl, ·, rfl⟩) fun lt3 =>
  ite_highestBit lt3 (⟨rfl, ·, rfl⟩) fun lt2 =>
  ite_highestBit lt2 (⟨rfl, ·, rfl⟩) fun lt1 =>
  ⟨rfl, rfl, by rw [eq_one_of_lt_two hd lt1]; rfl⟩

/-- The search through `op = 0b10` ends in a row whose range holds the data field (R60). -/
theorem reservedRow2_spec {d : Byte} (hd : d ≠ 0#8) : ReservedRowOf (tokenOf 0b10#2 d) (reservedRow2 d) :=
  ite_highestBit d.isLt (⟨rfl, ·, rfl⟩) fun lt7 =>
  ite_highestBit lt7 (⟨rfl, ·, rfl⟩) fun lt6 =>
  ite_highestBit lt6 (⟨rfl, ·, rfl⟩) fun lt5 =>
  ite_highestBit lt5 (⟨rfl, ·, rfl⟩) fun lt4 =>
  ite_highestBit lt4 (⟨rfl, ·, rfl⟩) fun lt3 =>
  ite_highestBit lt3 (⟨rfl, ·, rfl⟩) fun lt2 =>
  ite_highestBit lt2 (⟨rfl, ·, rfl⟩) fun lt1 =>
  ⟨rfl, rfl, by rw [eq_one_of_lt_two hd lt1]; rfl⟩

theorem decode_wellFormed (c : Token) : (decode c).wellFormed = true := by
  obtain ⟨-, e⟩ | ⟨d, -, e⟩ | ⟨-, e⟩ | ⟨d, hd, -, e⟩ | ⟨d, hd, -, e⟩ | ⟨d, -, e⟩ :=
    decode_cases c <;> rw [e]
  · rfl
  · rfl
  · rfl
  · exact (reservedRow0_spec hd).wellFormed
  · exact (reservedRow2_spec hd).wellFormed
  · rfl

theorem encode_decode (c : Token) : encode (decode c) = c := by
  obtain ⟨rfl, e⟩ | ⟨d, rfl, e⟩ | ⟨rfl, e⟩ | ⟨d, hd, rfl, e⟩ | ⟨d, hd, rfl, e⟩ | ⟨d, rfl, e⟩ :=
    decode_cases c <;> rw [e]
  · rfl
  · rfl
  · rfl
  · exact (reservedRow0_spec hd).encode_eq
  · exact (reservedRow2_spec hd).encode_eq
  · rfl

/-! ## Decoding what was encoded -/

/-- The highest set bit ends the search at its own row, so that decoding inverts encoding on every row. -/
theorem decode_encode {i : Instr} (h : i.wellFormed = true) : decode (encode i) = i := by
  cases i with
  | init | finalize | reservedOp0B0 | reservedOp2B0 => rfl
  | wbyte d => exact decode_tokenOf_wbyte d
  | reservedOp3 d => exact decode_tokenOf_op3 d
  | reservedOp0B7 d | reservedOp0B6 d | reservedOp0B5 d | reservedOp0B4 d | reservedOp0B3 d | reservedOp0B2 d
  | reservedOp0B1 d =>
    refine (decode_tokenOf_op0 (ne_zero_of_highestBit h)).trans ?_
    simp [reservedRow0, getLsbD_of_highestBit h, -BitVec.getLsbD_eq_getElem]
  | reservedOp2B7 d | reservedOp2B6 d | reservedOp2B5 d | reservedOp2B4 d | reservedOp2B3 d | reservedOp2B2 d
  | reservedOp2B1 d =>
    refine (decode_tokenOf_op2 (ne_zero_of_highestBit h)).trans ?_
    simp [reservedRow2, getLsbD_of_highestBit h, -BitVec.getLsbD_eq_getElem]

/-- Settles O1: the highest set bit of a reserved row's data field leads the decoder back to that row. -/
theorem decodeInvertsEncode : Obligations.DecodeInvertsEncode :=
  fun _ h => decode_encode h

/-! ## The reserved tokens -/

/-- The reserved ranges of R64, by the fields of the token. -/
theorem reservedToken_tokenOf (op : BitVec 2) (d : Byte) :
    Machine.reservedToken (tokenOf op d) ↔ op = 0b11#2 ∨ ((op = 0b00#2 ∨ op = 0b10#2) ∧ d ≠ 0#8) := by
  have hd : d.toNat < 256 := d.isLt
  simp only [Machine.reservedToken, toNat_tokenOf, ne_eq, ← BitVec.toNat_inj, BitVec.toNat_ofNat]
  omega

theorem reservedToken_iff (c : Token) : Machine.reservedToken c ↔ (decode c).isReserved = true := by
  obtain ⟨rfl, e⟩ | ⟨d, rfl, e⟩ | ⟨rfl, e⟩ | ⟨d, hd, rfl, e⟩ | ⟨d, hd, rfl, e⟩ | ⟨d, rfl, e⟩ :=
    decode_cases c <;> rw [e]
  · decide
  · simp [reservedToken_tokenOf, Instr.isReserved]
  · decide
  · exact iff_of_true ((reservedToken_tokenOf _ d).2 (by simp [hd])) (reservedRow0_spec hd).isReserved
  · exact iff_of_true ((reservedToken_tokenOf _ d).2 (by simp [hd])) (reservedRow2_spec hd).isReserved
  · exact iff_of_true ((reservedToken_tokenOf _ d).2 (.inl rfl)) rfl

theorem toNat_encode_wbyte (d : Byte) : (encode (.wbyte d)).toNat = 0x100 + d.toNat :=
  toNat_tokenOf 0b01#2 d

theorem decode_eq_wbyte {c : Token} {d : Byte} (h : c.toNat = 0x100 + d.toNat) : decode c = .wbyte d := by
  obtain rfl : c = encode (.wbyte d) := BitVec.eq_of_toNat_eq (h.trans (toNat_encode_wbyte d).symm)
  exact decode_encode rfl

/-- Settles O2: the clauses are the lemmas above. -/
theorem decoderFollowsRule65 : Obligations.DecoderFollowsRule65 :=
  ⟨fun _ _ => decode_eq_wbyte, decode_initToken, decode_finalizeToken, reservedToken_iff,
    rfl, toNat_encode_wbyte, rfl,
    decode_encode rfl, fun _ => decode_encode rfl, decode_encode rfl, fun c _ => encode_decode c⟩

end Sys2Proof
end

section
/-!
PROOF. O3: the opcode table (spec/30_encoding.md R60).
-/

namespace Sys2Proof

theorem rowOf_mem_opcodeTable (i : Instr) : rowOf i ∈ opcodeTable := by
  cases i <;> simp [rowOf, opcodeTable]

theorem opcodeTable_nodup : opcodeTable.Nodup := by decide

/-- Two rows of the table differ in a bit that both of them fix (R60). -/
theorem opcodeTable_disjoint : ∀ r ∈ opcodeTable, ∀ r' ∈ opcodeTable,
    r.pattern &&& r'.mask = r'.pattern &&& r.mask → r = r' := by
  decide

/-- No token selects two rows. -/
theorem row_unique {r r' : OpcodeRow} {c : Token} (hr : r ∈ opcodeTable) (hr' : r' ∈ opcodeTable)
    (h : rowSelects r c = true) (h' : rowSelects r' c = true) : r = r' := by
  have e : c &&& r.mask = r.pattern := eq_of_beq h
  have e' : c &&& r'.mask = r'.pattern := eq_of_beq h'
  apply opcodeTable_disjoint r hr r' hr'
  rw [← e, ← e', BitVec.and_assoc, BitVec.and_assoc, BitVec.and_comm r.mask]

/-- The token of a well-formed instruction selects the instruction's row (R60). -/
theorem rowOf_selects_encode (i : Instr) (h : i.wellFormed = true) : rowSelects (rowOf i) (encode i) = true := by
  cases i with
  | init => exact Laws.EncodeRow.init h
  | wbyte d => exact Laws.EncodeRow.wbyte d h
  | finalize => exact Laws.EncodeRow.finalize h
  | reservedOp0B7 d => exact Laws.EncodeRow.reservedOp0B7 d h
  | reservedOp0B6 d => exact Laws.EncodeRow.reservedOp0B6 d h
  | reservedOp0B5 d => exact Laws.EncodeRow.reservedOp0B5 d h
  | reservedOp0B4 d => exact Laws.EncodeRow.reservedOp0B4 d h
  | reservedOp0B3 d => exact Laws.EncodeRow.reservedOp0B3 d h
  | reservedOp0B2 d => exact Laws.EncodeRow.reservedOp0B2 d h
  | reservedOp0B1 d => exact Laws.EncodeRow.reservedOp0B1 d h
  | reservedOp0B0 => exact Laws.EncodeRow.reservedOp0B0 h
  | reservedOp2B7 d => exact Laws.EncodeRow.reservedOp2B7 d h
  | reservedOp2B6 d => exact Laws.EncodeRow.reservedOp2B6 d h
  | reservedOp2B5 d => exact Laws.EncodeRow.reservedOp2B5 d h
  | reservedOp2B4 d => exact Laws.EncodeRow.reservedOp2B4 d h
  | reservedOp2B3 d => exact Laws.EncodeRow.reservedOp2B3 d h
  | reservedOp2B2 d => exact Laws.EncodeRow.reservedOp2B2 d h
  | reservedOp2B1 d => exact Laws.EncodeRow.reservedOp2B1 d h
  | reservedOp2B0 => exact Laws.EncodeRow.reservedOp2B0 h
  | reservedOp3 d => exact Laws.EncodeRow.reservedOp3 d h

theorem rowOf_decode_selects (c : Token) : rowSelects (rowOf (decode c)) c = true := by
  have h := rowOf_selects_encode (decode c) (decode_wellFormed c)
  rwa [encode_decode] at h

/-- Of the rows of the table a token selects that of the instruction it decodes to. -/
theorem rowSelects_eq {r : OpcodeRow} (hr : r ∈ opcodeTable) (c : Token) :
    rowSelects r c = (r == rowOf (decode c)) := by
  rw [Bool.eq_iff_iff, beq_iff_eq]
  constructor
  · exact fun h => row_unique hr (rowOf_mem_opcodeTable _) h (rowOf_decode_selects c)
  · rintro rfl
    exact rowOf_decode_selects c

theorem filter_rowSelects (c : Token) : opcodeTable.filter (fun r => rowSelects r c) = [rowOf (decode c)] := by
  rw [List.filter_congr fun r hr => rowSelects_eq hr c, List.filter_beq,
    List.count_eq_one_of_mem opcodeTable_nodup (rowOf_mem_opcodeTable _)]
  rfl

/-- Settles O3: the rows are disjoint, and the row of the decoded instruction is selected. -/
theorem everyTokenSelectsOneRow : Obligations.EveryTokenSelectsOneRow :=
  fun c => ⟨filter_rowSelects c, decode_wellFormed c, encode_decode c⟩

end Sys2Proof
end

section
/-!
PROOF. O5: strings of bits as tokens (spec/30_encoding.md R57).
-/

namespace Sys2Proof

theorem tokenOfBits_eq_error {nbits w : Nat} (h : 1024 ≤ w % 2 ^ nbits) :
    tokenOfBits nbits w = .error .widerThanToken := by
  simp only [tokenOfBits, if_neg (Nat.not_lt.2 h)]

/-- Settles O5: a string whose value is a token is that token; a larger value is none. -/
theorem tableBitsDecode : Obligations.TableBitsDecode := by
  intro nbits w
  refine ⟨fun c h => ?_, fun h => ?_⟩
  · simp only [decodeTableWord, decodeBits, Machine.tokenOfBits_eq_ok h]
  · simp only [decodeBits, tokenOfBits_eq_error h]

end Sys2Proof
end

section
/-!
PROOF. O8, O9: the tokens of a sequence cause one step each, and the host reads the ports after each
(spec/30_encoding.md R49, R56, spec/70_reset_and_hazards.md R161).
-/

namespace Sys2Proof.Machine

/-- No sequence of instructions reads or writes the port. -/
theorem foldl_after_withPort (is : List Instr) (s : State) (p : List Token) :
    is.foldl after { s with port := p } = { is.foldl after s with port := p } := by
  induction is generalizing s with
  | nil => rfl
  | cons i is ih => rw [List.foldl_cons, after_withPort, ih, List.foldl_cons]

theorem run_succ {s t : State} (h : step s = .next t) (k : Nat) :
    Sys2Proof.core.run (k + 1) s = Sys2Proof.core.run k t := by
  have hcore : Sys2Proof.core.step s = .next t := h
  simp only [Host.Core.run, hcore]

/-- A run of one step a token empties the port and leaves the state after the instructions the tokens decode to. -/
theorem run_port (cs : List Token) (s : State) :
    Sys2Proof.core.run cs.length { s with port := cs } =
      .next { (cs.map decode).foldl after s with port := [] } := by
  induction cs generalizing s with
  | nil => rfl
  | cons c cs ih =>
    have hstep : step { s with port := c :: cs } = .next { after s (decode c) with port := cs } := by
      rw [step_cons rfl, after_withPort]
    exact (run_succ hstep cs.length).trans (ih (after s (decode c)))

/-- Settles O8: both lead to the fold of the decoded instructions, which leaves the port as it is. -/
theorem runIsTheDecodedSequence : Obligations.RunIsTheDecodedSequence := by
  intro s
  refine ⟨(s.port.map decode).foldl after { s with port := [] }, execAll_eq _ _, ?_⟩
  rw [foldl_after_withPort]
  exact run_port s.port s

theorem observations_cons (c : Token) (cs : List Token) (s : State) :
    observations (c :: cs) s = observe (after s (decode c)) :: observations cs (after s (decode c)) := by
  rw [observations, exec_after]

theorem length_observations (cs : List Token) (s : State) : (observations cs s).length = cs.length := by
  induction cs generalizing s with
  | nil => rfl
  | cons c cs ih => rw [observations_cons, List.length_cons, ih, List.length_cons]

/-- What the host reads after token `k` is the state after the tokens up to it (R56). -/
theorem observations_getElem? {cs : List Token} {k : Nat} (hk : k < cs.length) (s : State) :
    (observations cs s)[k]? = some (observe (((cs.take (k + 1)).map decode).foldl after s)) := by
  induction cs generalizing s k with
  | nil => exact absurd hk (Nat.not_lt_zero k)
  | cons c cs ih =>
    rw [observations_cons]
    cases k with
    | zero => rfl
    | succ k => exact ih (Nat.lt_of_succ_lt_succ hk) (after s (decode c))

/-- Settles O9: the state after the tokens up to `k` is the one their instructions lead to. -/
theorem oneObservationPerToken : Obligations.OneObservationPerToken := by
  intro cs s
  refine ⟨length_observations cs s, fun k t hk ht => ?_⟩
  rw [execAll_eq] at ht
  cases ht
  exact observations_getElem? hk s

end Sys2Proof.Machine
end

section
/-!
PROOF. O14: the reserved tokens (spec/30_encoding.md R64, spec/60_exceptions.md R127, R131).
-/

namespace Sys2Proof.Machine

/-- Every reserved row raises `IllegalCommand` and changes nothing else (R127, R131). -/
theorem exec_reserved {i : Instr} {s : State} (hi : i.isReserved = true) (h : s.err = false) :
    exec i s = .next { s with err := true, cause := some .illegalCommand } := by
  rw [exec_running h, effect_reserved hi]
  rfl

/-- Settles O14: each of the 17 rows is reserved. -/
theorem everyReservedRowCompletes : Obligations.EveryReservedRowCompletes := by
  intro d s h
  exact ⟨exec_reserved rfl h, exec_reserved rfl h, exec_reserved rfl h, exec_reserved rfl h, exec_reserved rfl h,
    exec_reserved rfl h, exec_reserved rfl h, exec_reserved rfl h, exec_reserved rfl h, exec_reserved rfl h,
    exec_reserved rfl h, exec_reserved rfl h, exec_reserved rfl h, exec_reserved rfl h, exec_reserved rfl h,
    exec_reserved rfl h, exec_reserved rfl h⟩

end Sys2Proof.Machine
end

section
/-!
PROOF. O52: the byte order of the digest port (spec/30_encoding.md R72).
-/

namespace Sys2Proof.Machine

/-- One byte of `OUT` joins the digest port at the low end. -/
def pushByte (v : BitVec 256) (b : Byte) : BitVec 256 := (v <<< 8) ||| b.setWidth 256

theorem digestPort_eq (s : State) : digestPort s = (outBytes s).foldl pushByte 0 := rfl

theorem extractLsb'_pushByte_zero (v : BitVec 256) (b : Byte) : (pushByte v b).extractLsb' 0 8 = b := by
  ext i hi
  have hi' : i < 256 := by omega
  simp [pushByte, hi, hi', BitVec.getLsbD_eq_getElem]

theorem extractLsb'_pushByte_add (v : BitVec 256) (b : Byte) {n : Nat} (h : n + 8 + 8 ≤ 256) :
    (pushByte v b).extractLsb' (n + 8) 8 = v.extractLsb' n 8 := by
  ext i hi
  have hlt : n + 8 + i < 256 := by omega
  have hsub : n + 8 + i - 8 = n + i := by omega
  have hge : 8 ≤ n + 8 + i := by omega
  simp [pushByte, hlt, hsub, hge, -BitVec.getLsbD_eq_getElem]

/-- Byte `j` from the low end of the bytes pushed is the `j`-th from the last one pushed. -/
theorem extractLsb'_foldr_pushByte (l : List Byte) {j : Nat} (hj : j < 32) :
    (l.foldr (fun b v => pushByte v b) 0).extractLsb' (8 * j) 8 = l.getD j 0 := by
  induction l generalizing j with
  | nil => exact BitVec.extractLsb'_zero
  | cons b l ih =>
    cases j with
    | zero => exact extractLsb'_pushByte_zero _ b
    | succ j =>
      have hin : 8 * j + 8 + 8 ≤ 256 := by omega
      exact (extractLsb'_pushByte_add _ b hin).trans (ih (Nat.lt_of_succ_lt hj))

@[simp] theorem length_outBytes (s : State) : (outBytes s).length = 32 := rfl

theorem outBytes_reverse_getD (s : State) {k : Nat} (hk : k < 32) :
    (outBytes s).reverse.getD (31 - k) 0 = outByte s k := by
  rw [List.getD_eq_getElem?_getD, List.getElem?_reverse' (j := k) (by rw [length_outBytes]; omega)]
  simp [outBytes, hk]

theorem extractLsb'_digestPort (s : State) {k : Nat} (hk : k < 32) :
    (digestPort s).extractLsb' (248 - 8 * k) 8 = outByte s k := by
  have hpos : 248 - 8 * k = 8 * (31 - k) := by omega
  rw [digestPort_eq, List.foldl_eq_foldr_reverse, hpos, extractLsb'_foldr_pushByte _ (by omega),
    outBytes_reverse_getD s hk]

/-- Settles O52: the byte lemma; the status port is `STATUS` by definition. -/
theorem digestPortLayout : Obligations.DigestPortLayout :=
  fun s => ⟨fun _ hk => extractLsb'_digestPort s hk, rfl⟩

end Sys2Proof.Machine
end

section
/-!
PROOF. O23, O24, O25: `INIT` starts a message from any phase and leaves `BUF`, `OUT`, `ERR` and `CAUSE` as they are
(spec/40_initialize.md R73 to R77).
-/

namespace Sys2Proof.Machine

theorem exec_init {s : State} (h : s.err = false) : exec .init s = .next (startMessage s) :=
  exec_running h .init

theorem bufByte_startMessage (s : State) (a : Nat) : bufByte (startMessage s) a = bufByte s a :=
  bufByte_congr (startMessage_buf s) (startMessage_draws s) a

theorem outByte_startMessage (s : State) (a : Nat) : outByte (startMessage s) a = outByte s a :=
  outByte_congr (startMessage_out s) (startMessage_draws s) a

/-- Two `INIT` in a row equal one (R74). -/
theorem startMessage_startMessage (s : State) : startMessage (startMessage s) = startMessage s := rfl

theorem status_startMessage {s : State} (he : s.err = false) (hc : s.cause = none) :
    status (startMessage s) = 0x01 := by
  rw [status, startMessage_cause, startMessage_err, startMessage_phase, he, hc]
  rfl

/-- Settles O23: the next state is `startMessage s`, whose `H` is `IV` written out; reset has no fault to show. -/
theorem initStartsAMessage : Obligations.InitStartsAMessage :=
  ⟨fun _ h => exec_init h, startMessage State.reset, exec_init rfl, status_startMessage rfl rfl⟩

/-- Settles O24: what `startMessage` writes are constants, and it keeps `ERR = 0`, so that a second `INIT` runs too. -/
theorem initForgetsThePast : Obligations.InitForgetsThePast := by
  intro s s' h h'
  have again : exec .init (startMessage s) = .next (startMessage s) := by
    rw [exec_init ((startMessage_err s).trans h), startMessage_startMessage]
  exact ⟨startMessage s, startMessage s', exec_init h, exec_init h', rfl, rfl, rfl, rfl,
    outByte_startMessage s, again⟩

/-- Settles O25: a halted engine keeps its whole state; on a running one `startMessage` writes none of these. -/
theorem initFrame : Obligations.InitFrame := by
  intro s t ht
  cases herr : s.err with
  | true =>
    cases (exec_halted herr .init).symm.trans ht
    exact ⟨fun _ => rfl, fun _ => rfl, rfl, rfl, herr, rfl, rfl, rfl⟩
  | false =>
    cases (exec_init herr).symm.trans ht
    exact ⟨bufByte_startMessage s, outByte_startMessage s, startMessage_buf s, startMessage_out s,
      (startMessage_err s).trans herr, startMessage_cause s, startMessage_draws s, startMessage_port s⟩

end Sys2Proof.Machine
end

section
/-!
PROOF. O26, O27, O28: one `WBYTE` in every state (spec/41_write.md R80 to R82, R89).
-/

namespace Sys2Proof.Machine

theorem exec_wbyte_active {s : State} (h : s.err = false) (hp : s.phase = .active) (d : Byte) :
    exec (.wbyte d) s = .next (appendByte d s) := by
  rw [exec_after, after_wbyte h hp]

/-- What `WBYTE` can do: nothing to a halted engine, one fault outside `ACTIVE`, and in `ACTIVE` append its byte. -/
theorem exec_wbyte_cases {d : Byte} {s t : State} (h : exec (.wbyte d) s = .next t) :
    (s.err = true ∧ t = s) ∨ (s.phase ≠ .active ∧ ∃ x, t = raise x s) ∨
      (s.err = false ∧ s.phase = .active ∧ t = appendByte d s) := by
  rw [exec_after] at h
  cases h
  cases herr : s.err with
  | true => exact .inl ⟨rfl, after_halted herr _⟩
  | false =>
    rw [after_running herr]
    obtain ⟨x, e, -, misuse⟩ | ⟨hi, -⟩ | ⟨_, hi, hp, e⟩ | ⟨hi, -⟩ := effect_cases (.wbyte d) s
    · exact .inr (.inl ⟨misuse.resolve_left nofun, x, e⟩)
    · cases hi
    · cases hi
      exact .inr (.inr ⟨rfl, hp, e⟩)
    · cases hi

theorem outByte_appendByte (d : Byte) (s : State) (a : Nat) : outByte (appendByte d s) a = outByte s a :=
  outByte_congr (appendByte_out d s) (appendByte_draws d s) a

theorem appendByte_h_of_not_full {s : State} (hn : s.nbuf.val ≠ 63) (d : Byte) : (appendByte d s).h = s.h := by
  rw [appendByte_h, if_neg fun e => hn (congrArg Fin.val e)]

/-- The 64th byte completes the block that is compressed (R83). -/
theorem appendByte_h_of_full {s : State} (hn : s.nbuf.val = 63) (d : Byte) :
    (appendByte d s).h = compress s.h fun i => if i.val = 63 then d else bufByte s i := by
  rw [appendByte_h, if_pos (Fin.ext hn)]
  refine compress_congr rfl (funext fun i => ?_)
  rw [bufBlock, bufByte_storeByte, hn]

theorem status_congr {s t : State} (hc : t.cause = s.cause) (he : t.err = s.err) (hp : t.phase = s.phase) :
    status t = status s := by
  rw [status, status, hc, he, hp]

/-- Settles O26: in `ACTIVE` the next state is `appendByte d s`; elsewhere it is the fault entry of the phase. -/
theorem wbyteAppendsAByte : Obligations.WbyteAppendsAByte := by
  intro d s
  refine ⟨fun h hp => ⟨appendByte d s, exec_wbyte_active h hp d, bufByte_appendByte d s, appendByte_len d s, ?_,
      (appendByte_phase d s).trans hp, outByte_appendByte d s, appendByte_err d s, appendByte_cause d s⟩,
    fun h hp => ?_, fun h hp => ?_, fun h => exec_halted h _⟩
  · rw [appendByte_nbuf]
    split
    case isTrue hn => exact ⟨by rw [hn], appendByte_h_of_full hn d⟩
    case isFalse hn => exact ⟨by omega, appendByte_h_of_not_full hn d⟩
  · rw [exec_running h, effect, whenActive_uninit hp]
    rfl
  · rw [exec_running h, effect, whenActive_consumed hp]
    rfl

/-- Settles O27: a halted engine keeps its whole state, a fault entry writes `ERR` and `CAUSE` only, and in `ACTIVE` the
byte at `NBUF` is the one store. -/
theorem wbyteFrame : Obligations.WbyteFrame := by
  intro d s t ht
  obtain ⟨-, rfl⟩ | ⟨-, x, rfl⟩ | ⟨herr, hp, rfl⟩ := exec_wbyte_cases ht
  · exact ⟨fun _ _ => rfl, fun _ => rfl, rfl, rfl, rfl, fun _ => rfl, fun _ => ⟨fun _ => rfl, rfl, rfl, rfl⟩⟩
  · exact ⟨fun _ _ => rfl, fun _ => rfl, rfl, rfl, rfl, fun _ => rfl, fun _ => ⟨fun _ => rfl, rfl, rfl, rfl⟩⟩
  · refine ⟨fun a ha => ?_, outByte_appendByte d s, appendByte_phase d s, appendByte_draws d s, appendByte_port d s,
      fun hn => appendByte_h_of_not_full hn d, fun hidle => ?_⟩
    · rw [bufByte_appendByte, if_neg ha]
    · simp [herr, hp] at hidle

/-- Settles O28: `appendByte` adds 1 to `LEN` in both of its branches and writes no part of `STATUS`. -/
theorem lenCountsEveryByte : Obligations.LenCountsEveryByte := by
  intro d s h hp
  refine ⟨appendByte d s, exec_wbyte_active h hp d, ?_,
    status_congr (appendByte_cause d s) (appendByte_err d s) (appendByte_phase d s)⟩
  rw [appendByte_len, add64, BitVec.toNat_add]
  rfl

end Sys2Proof.Machine
end

section
/-!
PROOF. O29, O30, O31: a write as one transaction is the bytes appended one after another (spec/41_write.md R84 to R87).
-/

namespace Sys2Proof.Machine

/-- One turn of the loop of R84 does to `H`, `BUF` and the fill count what `WBYTE` does (R83, R84). -/
theorem writeLoop_cons (d : Byte) (ds : List Byte) (s : State) :
    writeLoop (Config.unspecBuf s.draws) (d :: ds) s.h s.buf s.nbuf.val =
      writeLoop (Config.unspecBuf (appendByte d s).draws) ds (appendByte d s).h (appendByte d s).buf
        (appendByte d s).nbuf.val := by
  have hlt := s.nbuf.isLt
  rw [writeLoop, appendByte_draws, appendByte_buf, appendByte_nbuf]
  split
  case isTrue full =>
    have hblock : bufBlock (storeByte d s) =
        fun i => ((s.buf.write s.nbuf.val d).byte? i.val).getD (Config.unspecBuf s.draws i.val) := rfl
    rw [appendByte_h, if_pos (Fin.ext (Nat.succ.inj full)), full, hblock]
  case isFalse room =>
    rw [appendByte_h_of_not_full (by omega), Nat.mod_eq_of_lt (by omega)]

/-- The loop of R84 leaves the `H`, `BUF` and `NBUF` of the bytes appended one after another. -/
theorem writeLoop_eq_foldl (data : List Byte) (s : State) :
    let t := data.foldl (fun t d => appendByte d t) s
    writeLoop (Config.unspecBuf s.draws) data s.h s.buf s.nbuf.val = (t.h, t.buf, t.nbuf.val) := by
  induction data generalizing s with
  | nil => rfl
  | cons d ds ih => rw [writeLoop_cons, ih, List.foldl_cons]

/-- The transaction of R84 is the bytes appended one after another, in every state (R85). -/
theorem writeTransaction_eq_foldl (data : List Byte) (s : State) :
    writeTransaction data s = data.foldl (fun t d => appendByte d t) s := by
  obtain ⟨herr, hphase, hcause, hout, hdraws, hport⟩ := foldl_append_frame data s
  have hlen := foldl_append_len data s
  rw [writeTransaction, writeLoop_eq_foldl, add64, ← hlen, ← hout, ← hphase, ← herr, ← hcause, ← hdraws, ← hport]
  dsimp only
  rw [Fin.ofNat_val_eq_self]

/-- Settles O29: both are the bytes appended one after another, which write no part of `STATUS`. -/
theorem writeIsItsBeats : Obligations.WriteIsItsBeats := by
  intro data s h hp
  have beats : ∀ bs : List Byte,
      execAll (assembleWrite bs) s = .next (bs.foldl (fun t d => appendByte d t) s) :=
    fun bs => by rw [execAll_eq, foldl_after_write h hp]
  refine ⟨by rw [beats, writeTransaction_eq_foldl], fun k t ht => ?_⟩
  cases (beats _).symm.trans ht
  obtain ⟨herr, hphase, hcause, -⟩ := foldl_append_frame (data.take k) s
  exact status_congr hcause herr hphase

/-- Settles O30: the transaction appends no byte. -/
theorem zeroLengthWriteChangesNothing : Obligations.ZeroLengthWriteChangesNothing :=
  fun s => ⟨writeTransaction_eq_foldl [] s, rfl, rfl⟩

/-- Writing chunks in order is writing the bytes of all of them (R87). -/
theorem foldl_writeTransaction (chunks : List (List Byte)) (s : State) :
    chunks.foldl (fun t c => writeTransaction c t) s = writeTransaction chunks.flatten s := by
  simp only [writeTransaction_eq_foldl, List.foldl_flatten]

/-- Settles O31: the two states are equal, so that `FINALIZE` answers the same. -/
theorem writesAreChunkInvariant : Obligations.WritesAreChunkInvariant :=
  fun chunks s => ⟨foldl_writeTransaction chunks s, congrArg (exec .finalize) (foldl_writeTransaction chunks s)⟩

end Sys2Proof.Machine
end

section
/-!
PROOF. O32: the closed form of the state after `INIT` and the bytes of a message (spec/41_write.md R88).
-/

namespace Sys2Proof.Machine

/-- The closed form of R88: the registers hold the message `m`, its full blocks chained into `H` and the rest in `BUF`. -/
structure State.HoldsMessage (s : State) (m : List Byte) : Prop where
  len : s.len = BitVec.ofNat 64 m.length
  nbuf : s.nbuf.val = m.length % 64
  h : s.h = chainWords m (m.length / 64)
  buf : ∀ i, i < s.nbuf.val → bufByte s i = m.getD (64 * (m.length / 64) + i) 0

theorem holdsMessage_startMessage (s : State) : (startMessage s).HoldsMessage [] :=
  ⟨rfl, rfl, rfl, fun _ hi => absurd hi (Nat.not_lt_zero _)⟩

/-- After the store of one more byte `BUF` holds the rest of the longer message, that byte at `NBUF` (R81). -/
theorem bufByte_storeByte_of_holdsMessage {s : State} {m : List Byte} (hm : s.HoldsMessage m) (d : Byte) {i : Nat}
    (hi : i ≤ s.nbuf.val) :
    bufByte (storeByte d s) i = (m ++ [d]).getD (64 * (m.length / 64) + i) 0 := by
  have hn := hm.nbuf
  rw [bufByte_storeByte]
  split
  case isTrue last =>
    rw [show 64 * (m.length / 64) + i = m.length by omega, List.getD_append_right _ _ _ _ le_rfl, Nat.sub_self]
    rfl
  case isFalse earlier =>
    rw [hm.buf i (by omega), List.getD_append _ _ _ _ (by omega)]

/-- The chain over the full blocks goes one block further exactly when the byte is the 64th (R83, R88). -/
theorem appendByte_h_of_holdsMessage {s : State} {m : List Byte} (hm : s.HoldsMessage m) (d : Byte) :
    (appendByte d s).h = chainWords (m ++ [d]) ((m ++ [d]).length / 64) := by
  have hn := hm.nbuf
  have chain : chainWords (m ++ [d]) (m.length / 64) = s.h := by
    rw [hm.h, chainWords_append _ _ (by omega)]
  rw [appendByte_h, List.length_append, List.length_singleton]
  split
  case isTrue full =>
    have hfull : s.nbuf.val = 63 := congrArg Fin.val full
    rw [show (m.length + 1) / 64 = m.length / 64 + 1 by omega, chainWords, chain]
    refine compress_congr rfl (funext fun i => ?_)
    exact bufByte_storeByte_of_holdsMessage hm d (by omega)
  case isFalse room =>
    have hroom : s.nbuf.val ≠ 63 := fun e => room (Fin.ext e)
    rw [show (m.length + 1) / 64 = m.length / 64 by omega, chain]

theorem holdsMessage_appendByte {s : State} {m : List Byte} (hm : s.HoldsMessage m) (d : Byte) :
    (appendByte d s).HoldsMessage (m ++ [d]) where
  len := by
    rw [appendByte_len, hm.len, add64, List.length_append, BitVec.ofNat_add]
    rfl
  nbuf := by
    rw [appendByte_nbuf, hm.nbuf, List.length_append, List.length_singleton, Nat.mod_add_mod]
  h := appendByte_h_of_holdsMessage hm d
  buf i hi := by
    have hn := hm.nbuf
    have hlt := s.nbuf.isLt
    rw [appendByte_nbuf] at hi
    rw [bufByte_appendByte_eq_storeByte, bufByte_storeByte_of_holdsMessage hm d (by omega), List.length_append,
      List.length_singleton, show (m.length + 1) / 64 = m.length / 64 by omega]

/-- Appending the bytes of `m` to an engine that has just started a message leaves the closed form of `m`. -/
theorem holdsMessage_foldl (m : List Byte) (s : State) :
    (m.foldl (fun t d => appendByte d t) (startMessage s)).HoldsMessage m := by
  induction m using List.reverseRecOn with
  | nil => exact holdsMessage_startMessage s
  | append_singleton m d ih =>
    rw [List.foldl_append]
    exact holdsMessage_appendByte ih d

/-- `INIT` and the bytes of a message in any chunking: the bytes appended to the started message. -/
theorem execAll_init_write {s : State} (h : s.err = false) (chunks : List (List Byte)) :
    execAll (.init :: chunks.flatMap assembleWrite) s =
      .next (chunks.flatten.foldl (fun t d => appendByte d t) (startMessage s)) := by
  rw [execAll_eq, List.foldl_cons, after_init h, flatMap_assembleWrite, foldl_after_write (s := startMessage s) h rfl]

/-- Settles O32: the chunks' bytes are appended to the started message, which keeps the closed form. -/
theorem closedFormAfterWriting : Obligations.ClosedFormAfterWriting := by
  rintro chunks m s rfl hlen herr
  obtain ⟨len, nbuf, chain, buf⟩ := holdsMessage_foldl chunks.flatten s
  obtain ⟨err, phase, -⟩ := foldl_append_frame chunks.flatten (startMessage s)
  refine ⟨_, execAll_init_write herr chunks, ?_, nbuf, chain, buf, phase, err.trans herr⟩
  rw [len, BitVec.toNat_ofNat, Nat.mod_eq_of_lt hlen]

end Sys2Proof.Machine
end

section
/-!
PROOF. O34, O35, O36: the message schedule, the rounds with the add-back, and what `COMPRESS` reads and writes
(spec/42_compress.md R90, R100 to R104).
-/

namespace Sys2Proof.Machine

/-- The load is big-endian: a schedule word below 16 is the value of its four bytes of `BUF` (R40, R100). -/
theorem toNat_schedule_getD_load (s : State) {t : Nat} (h : t < 16) :
    ((schedule (bufBlock s)).getD t 0).toNat = (bufByte s (4 * t)).toNat * 2 ^ 24 +
      (bufByte s (4 * t + 1)).toNat * 2 ^ 16 + (bufByte s (4 * t + 2)).toNat * 2 ^ 8 +
      (bufByte s (4 * t + 3)).toNat :=
  (congrArg BitVec.toNat (schedule_getD_eq_memRead4 s h)).trans (toNat_be32 _ _ _ _)

/-- Settles O34: the first 16 entries are the load, which the extension keeps; the others are the recurrence. -/
theorem scheduleFollowsTheRecurrence : Obligations.ScheduleFollowsTheRecurrence :=
  fun s => ⟨length_schedule _, fun _ h => toNat_schedule_getD_load s h, fun _ h ht => schedule_getD_next _ h ht⟩

/-- Settles O35: the first `t + 1` rounds are the first `t` and one more with `K[t]` and `W[t]`. -/
theorem roundsAndAddBack : Obligations.RoundsAndAddBack := by
  intro hin b
  refine ⟨workingAfter_zero hin _, fun t ht => ?round, ?addBack⟩
  case round => exact workingAfter_succ hin (length_schedule b) ht
  case addBack => rw [compress]; rfl

/-- Settles O36: `COMPRESS` is a function of `H` and of the block, and the block one of `BUF[0..63]`. -/
theorem compressReadsBlockWritesH : Obligations.CompressReadsBlockWritesH :=
  fun s _ hh hbuf => ⟨compress_congr hh (bufBlock_congr hbuf), compressBuf_h s, rfl⟩

end Sys2Proof.Machine
end

section
/-!
PROOF. O33, O38, O39: the constants and the six functions of `COMPRESS` (spec/42_compress.md R92 to R99).
-/

namespace Sys2Proof.Machine

/-- `Ch` selects: where `x` has a 1 only `x & y` can contribute, elsewhere only `~x & z` (R94). -/
theorem getLsbD_ch (x y z : Word) {i : Nat} (hi : i < 32) :
    (ch x y z).getLsbD i = if x.getLsbD i then y.getLsbD i else z.getLsbD i := by
  rw [ch, BitVec.getLsbD_xor, BitVec.getLsbD_and, BitVec.getLsbD_and, BitVec.getLsbD_not, decide_eq_true hi]
  cases x.getLsbD i <;> simp

/-- The parity of the three pairwise conjunctions of bits is their majority. -/
theorem xor_pairs_eq_majority (a b c : Bool) :
    ((a && b) ^^ (a && c) ^^ (b && c)) = decide (2 ≤ a.toNat + b.toNat + c.toNat) := by
  revert a b c
  decide

theorem getLsbD_maj (x y z : Word) (i : Nat) :
    (maj x y z).getLsbD i =
      decide (2 ≤ (x.getLsbD i).toNat + (y.getLsbD i).toNat + (z.getLsbD i).toNat) := by
  rw [maj, BitVec.getLsbD_xor, BitVec.getLsbD_xor, BitVec.getLsbD_and, BitVec.getLsbD_and, BitVec.getLsbD_and,
    xor_pairs_eq_majority]

/-- Settles O38: the formulas are the definitions, the bits those of the two lemmas above. -/
theorem chooseAndMajority : Obligations.ChooseAndMajority :=
  fun x y z => ⟨rfl, rfl, fun i hi => ⟨getLsbD_ch x y z hi, getLsbD_maj x y z i⟩⟩

/-- Bit `i` of a shift right by `n` is bit `i + n`; beyond bit 31 it reads 0 (R8). -/
theorem shr_getLsbD (x : Word) (n i : Nat) : (shr x n).getLsbD i = x.getLsbD (i + n) := by
  rw [shr, BitVec.getLsbD_ushiftRight, Nat.add_comm]

/-- The exclusive or of three rotations, as in `bsig0` and `bsig1`, bit by bit (R96, R97). -/
theorem getLsbD_xor_rotr_rotr_rotr (x : Word) {k m n i : Nat} (hk : k < 32) (hm : m < 32) (hn : n < 32)
    (hi : i < 32) :
    (rotr x k ^^^ rotr x m ^^^ rotr x n).getLsbD i =
      (x.getLsbD ((i + k) % 32) ^^ x.getLsbD ((i + m) % 32) ^^ x.getLsbD ((i + n) % 32)) := by
  rw [BitVec.getLsbD_xor, BitVec.getLsbD_xor, rotr_getLsbD x hk hi, rotr_getLsbD x hm hi, rotr_getLsbD x hn hi]

/-- The exclusive or of two rotations and a shift, as in `ssig0` and `ssig1`, bit by bit (R98, R99). -/
theorem getLsbD_xor_rotr_rotr_shr (x : Word) {k m i : Nat} (hk : k < 32) (hm : m < 32) (hi : i < 32) (n : Nat) :
    (rotr x k ^^^ rotr x m ^^^ shr x n).getLsbD i =
      (x.getLsbD ((i + k) % 32) ^^ x.getLsbD ((i + m) % 32) ^^ x.getLsbD (i + n)) := by
  rw [BitVec.getLsbD_xor, BitVec.getLsbD_xor, rotr_getLsbD x hk hi, rotr_getLsbD x hm hi, shr_getLsbD]

/-- Settles O39: each function combines three rotations, or two rotations and a shift. -/
theorem sigmasBitByBit : Obligations.SigmasBitByBit := fun x _ hi =>
  ⟨getLsbD_xor_rotr_rotr_rotr x (by decide) (by decide) (by decide) hi,
    getLsbD_xor_rotr_rotr_rotr x (by decide) (by decide) (by decide) hi,
    getLsbD_xor_rotr_rotr_shr x (by decide) (by decide) hi 3,
    getLsbD_xor_rotr_rotr_shr x (by decide) (by decide) hi 10⟩

/-- Settles O33: 8 square roots and 64 cube roots, each bracketed by two powers of literals; a search below 8 finds the
integer part. -/
theorem constantsAreRootsOfPrimes : Obligations.ConstantsAreRootsOfPrimes := by
  refine ⟨?squareRoots, length_roundConstants, ?cubeRoots⟩
  case squareRoots => decide +kernel
  case cubeRoots => decide +kernel

end Sys2Proof.Machine
end

section
/-!
PROOF. O42, O44, O45: one `FINALIZE` in every state (spec/43_finalize.md R110 to R118).
-/

namespace Sys2Proof.Machine

/-- Check 3 of R130 has two outcomes: one fault outside `ACTIVE`, the effect of the command in it. -/
theorem whenActive_cases (f : State → State) (s : State) :
    (s.phase ≠ .active ∧ ∃ x, whenActive f s = raise x s) ∨ (s.phase = .active ∧ whenActive f s = f s) := by
  cases hp : s.phase with
  | uninit => exact .inl ⟨nofun, _, whenActive_uninit hp⟩
  | active => exact .inr ⟨rfl, whenActive_active hp⟩
  | consumed => exact .inl ⟨nofun, _, whenActive_consumed hp⟩

/-- What `FINALIZE` can do: nothing to a halted engine, one fault outside `ACTIVE`, and in `ACTIVE` finish the message. -/
theorem exec_finalize_cases {s t : State} (h : exec .finalize s = .next t) :
    (s.err = true ∧ t = s) ∨ (s.phase ≠ .active ∧ ∃ x, t = raise x s) ∨
      (s.err = false ∧ s.phase = .active ∧ t = finishMessage s) := by
  cases herr : s.err with
  | true =>
    rw [exec_halted herr] at h
    cases h
    exact .inl ⟨rfl, rfl⟩
  | false =>
    rw [exec_running herr] at h
    cases h
    obtain ⟨hp, fault⟩ | ⟨hp, finish⟩ := whenActive_cases finishMessage s
    · exact .inr (.inl ⟨hp, fault⟩)
    · exact .inr (.inr ⟨rfl, hp, finish⟩)

/-- `SERIALIZE` writes the 32 bytes of `OUT` and none beyond (R116). -/
theorem byte?_finishMessage_out_beyond (s : State) {a : Nat} (ha : 32 ≤ a) :
    (finishMessage s).out.byte? a = s.out.byte? a := by
  rw [finishMessage_out, byte?_writeBytes_other _ _ (.inr (by simpa using ha))]

/-- Settles O42: the next state is `finishMessage s`, whose `OUT` holds the bytes of `finalWords s`. -/
theorem finalizeWritesTheDigest : Obligations.FinalizeWritesTheDigest := by
  intro s h hp
  refine ⟨finishMessage s, exec_finalize_active h hp, fun i k hk => ?_, finishMessage_phase s,
    (finishMessage_err s).trans h, finishMessage_cause s⟩
  rw [outByte_finishMessage s (by omega), finalWords_eq, bytesOfWords_getD _ i hk]

/-- Settles O44: outside `ACTIVE` the effect is the fault entry of the phase. -/
theorem finalizeOutsideActive : Obligations.FinalizeOutsideActive := by
  intro s
  refine ⟨fun h hp => ?_, fun h hp => ?_, fun h => exec_halted h _⟩
  · rw [exec_running h, effect, whenActive_uninit hp]
    rfl
  · rw [exec_running h, effect, whenActive_consumed hp]
    rfl

/-- Settles O45: a halted engine keeps its whole state, a fault entry writes `ERR` and `CAUSE` only, and in `ACTIVE` the
32 bytes of the digest are the one write of `OUT`. -/
theorem finalizeFrame : Obligations.FinalizeFrame := by
  intro s t ht
  obtain ⟨herr, rfl⟩ | ⟨hp, x, rfl⟩ | ⟨herr, hp, rfl⟩ := exec_finalize_cases ht
  · exact ⟨rfl, fun _ _ => ⟨rfl, rfl, fun _ _ => rfl⟩, fun _ => ⟨rfl, fun _ => rfl, fun _ => rfl⟩⟩
  · exact ⟨rfl, fun _ hactive => absurd hactive hp, fun _ => ⟨rfl, fun _ => rfl, fun _ => rfl⟩⟩
  · refine ⟨finishMessage_port s, fun _ _ => ⟨finishMessage_err s, finishMessage_cause s,
      fun _ ha => byte?_finishMessage_out_beyond s ha⟩, fun hidle => ?_⟩
    simp [herr, hp] at hidle

end Sys2Proof.Machine
end

section
/-!
PROOF. O46: the length of the padded message and its bytes, part by part (spec/43_finalize.md R115, R119).
-/

namespace Sys2Proof.Machine

/-- Block `(n + 8) / 64` is the last one of the padded message (R115). -/
theorem length_paddedMessage_eq (m : List Byte) :
    (paddedMessage m).length = 64 * ((m.length + 8) / 64) + 64 := by
  rw [length_paddedMessage, padZeros]
  omega

/-- Settles O46: arithmetic on the closed form of the length. -/
theorem paddedMessageLength : Obligations.PaddedMessageLength := by
  intro m _
  dsimp only
  rw [length_paddedMessage_eq]
  refine ⟨by omega, by omega, fun q _ _ => by omega, ?_, by omega⟩
  split <;> omega

theorem paddedMessage_eq_append (m : List Byte) : paddedMessage m =
    m ++ (Config.padMark :: (List.replicate (padZeros m.length) 0x00#8 ++
      bytes64 (BitVec.ofNat 64 (8 * m.length)))) := by
  simp [paddedMessage]

theorem paddedMessage_getD_message {m : List Byte} {x : Nat} (h : x < m.length) :
    (paddedMessage m).getD x 0 = m.getD x 0 := by
  rw [paddedMessage_eq_append, List.getD_append _ _ _ _ h]

theorem paddedMessage_getD_marker (m : List Byte) : (paddedMessage m).getD m.length 0 = 0x80 := by
  rw [paddedMessage_eq_append, List.getD_append_right _ _ _ _ le_rfl, Nat.sub_self]
  rfl

/-- The zeros reach up to the last 8 bytes of the padded message (R119). -/
theorem paddedMessage_getD_zero {m : List Byte} {x : Nat} (h : m.length < x)
    (hx : x < 64 * ((m.length + 8) / 64) + 56) : (paddedMessage m).getD x 0 = 0x00 := by
  obtain ⟨k, rfl⟩ := Nat.exists_eq_add_of_lt h
  have hk : k < padZeros m.length := by rw [padZeros]; omega
  rw [paddedMessage_eq_append, List.getD_append_right _ _ _ _ h.le, show m.length + k + 1 - m.length = k + 1 by omega,
    List.getD_cons_succ, List.getD_append _ _ _ _ (by simpa using hk), List.getD_replicate _ hk]
  rfl

/-- The last 8 bytes of the padded message are the length field that `PAD` stores, for a message of any length, since both
count modulo 2^64 (R111, R119). -/
theorem paddedMessage_getD_length (m : List Byte) {i : Nat} (h : 56 ≤ i) (hi : i < 64) :
    (paddedMessage m).getD (64 * ((m.length + 8) / 64) + i) 0 = lengthByte (BitVec.ofNat 64 m.length) i := by
  have field : bitLength (BitVec.ofNat 64 m.length) = BitVec.ofNat 64 (8 * m.length) := by
    rw [bitLength_eq, Nat.mul_comm, BitVec.ofNat_mul]
    rfl
  have front : (m ++ [Config.padMark] ++ List.replicate (padZeros m.length) 0x00#8).length =
      64 * ((m.length + 8) / 64) + 56 := by
    rw [List.length_append, List.length_append, List.length_singleton, List.length_replicate, padZeros]
    omega
  rw [← bytes64_lengthByte _ h hi, field, paddedMessage, List.getD_append_right _ _ _ _ (by omega), front,
    Nat.add_sub_add_left]

end Sys2Proof.Machine
end

section
/-!
PROOF. O47, O48: the digest of a message in any chunking (spec/43_finalize.md R120, R122). From the closed form of R88 the
blocks that `PAD` compresses are the last blocks of the padded message.
-/

namespace Sys2Proof.Machine

/-- Below `NBUF` the buffer holds the padded message's own bytes (R88). -/
theorem paddedMessage_getD_buf {s : State} {m : List Byte} (hm : s.HoldsMessage m) {i : Nat} (hi : i < s.nbuf.val) :
    (paddedMessage m).getD (64 * (m.length / 64) + i) 0 = bufByte s i := by
  have hn := hm.nbuf
  rw [hm.buf i hi, paddedMessage_getD_message (by omega)]

/-- The marker stands at `NBUF` (R112). -/
theorem paddedMessage_getD_nbuf {s : State} {m : List Byte} (hm : s.HoldsMessage m) {i : Nat} (hi : i = s.nbuf.val) :
    (paddedMessage m).getD (64 * (m.length / 64) + i) 0 = 0x80 := by
  have hn := hm.nbuf
  rw [show 64 * (m.length / 64) + i = m.length by omega, paddedMessage_getD_marker]

theorem blockOf_paddedMessage_short {s : State} {m : List Byte} (hm : s.HoldsMessage m) (h : s.nbuf.val ≤ 55) :
    blockOf (paddedMessage m) (m.length / 64) = shortPadBlock s := by
  funext i
  have hi := i.isLt
  have hn := hm.nbuf
  rw [blockOf, shortPadBlock]
  split_ifs with below marker zero
  · exact paddedMessage_getD_buf hm below
  · exact paddedMessage_getD_nbuf hm marker
  · exact paddedMessage_getD_zero (by omega) (by omega)
  · rw [hm.len, ← paddedMessage_getD_length m (by omega) hi, show (m.length + 8) / 64 = m.length / 64 by omega]

theorem blockOf_paddedMessage_first {s : State} {m : List Byte} (hm : s.HoldsMessage m) (h : 55 < s.nbuf.val) :
    blockOf (paddedMessage m) (m.length / 64) = longPadFirst s := by
  funext i
  have hi := i.isLt
  have hn := hm.nbuf
  rw [blockOf, longPadFirst]
  split_ifs with below marker
  · exact paddedMessage_getD_buf hm below
  · exact paddedMessage_getD_nbuf hm marker
  · exact paddedMessage_getD_zero (by omega) (by omega)

theorem blockOf_paddedMessage_second {s : State} {m : List Byte} (hm : s.HoldsMessage m) (h : 55 < s.nbuf.val) :
    blockOf (paddedMessage m) (m.length / 64 + 1) = longPadSecond s := by
  funext i
  have hi := i.isLt
  have hn := hm.nbuf
  rw [blockOf, longPadSecond]
  split_ifs with zero
  · exact paddedMessage_getD_zero (by omega) (by omega)
  · rw [hm.len, ← paddedMessage_getD_length m (by omega) hi, show (m.length + 8) / 64 = m.length / 64 + 1 by omega]

/-- The words that `SERIALIZE` reads are the chain over all blocks of the padded message (R115, R120). -/
theorem finalWords_of_holdsMessage {s : State} {m : List Byte} (hm : s.HoldsMessage m) :
    finalWords s = chainWords (paddedMessage m) ((paddedMessage m).length / 64) := by
  have hn := hm.nbuf
  have full : chainWords (paddedMessage m) (m.length / 64) = s.h := by
    rw [hm.h, paddedMessage_eq_append, chainWords_append _ _ (by omega)]
  rw [length_paddedMessage_eq, finalWords]
  split
  case isTrue short =>
    rw [show (64 * ((m.length + 8) / 64) + 64) / 64 = m.length / 64 + 1 by omega, chainWords, full,
      blockOf_paddedMessage_short hm short]
  case isFalse long =>
    rw [show (64 * ((m.length + 8) / 64) + 64) / 64 = m.length / 64 + 1 + 1 by omega, chainWords, chainWords, full,
      blockOf_paddedMessage_first hm (by omega), blockOf_paddedMessage_second hm (by omega)]

theorem outBytes_finishMessage_of_holdsMessage {s : State} {m : List Byte} (hm : s.HoldsMessage m) :
    outBytes (finishMessage s) = sha256 m := by
  rw [outBytes_finishMessage, finalWords_of_holdsMessage hm, sha256]

/-- `INIT`, a message of any length in any chunking, and `FINALIZE` leave its digest in `OUT` (R120). -/
theorem execAll_init_write_finalize {s : State} (h : s.err = false) (chunks : List (List Byte)) :
    ∃ t, execAll (.init :: (chunks.flatMap assembleWrite ++ [.finalize])) s = .next t ∧
      outBytes t = sha256 chunks.flatten ∧ t.phase = .consumed ∧ t.err = false := by
  obtain ⟨err, phase, -⟩ := foldl_append_frame chunks.flatten (startMessage s)
  have written := (execAll_eq _ s).symm.trans (execAll_init_write h chunks)
  refine ⟨_, ?_, outBytes_finishMessage_of_holdsMessage (holdsMessage_foldl chunks.flatten s), finishMessage_phase _,
    (finishMessage_err _).trans (err.trans h)⟩
  rw [← List.cons_append, execAll_eq, List.foldl_append, Host.Outcome.next.inj written]
  exact congrArg _ (after_finalize (err.trans h) phase)

/-- Settles O47: `HASH` writes the message in one chunk. -/
theorem digestIsSha256 : Obligations.DigestIsSha256 := by
  intro m s _ herr
  refine ⟨?_, ?_⟩
  · rintro chunks rfl
    exact execAll_init_write_finalize herr chunks
  · obtain ⟨t, ht, digest, -⟩ := execAll_init_write_finalize herr [m]
    rw [flatMap_assembleWrite, List.flatten_singleton] at ht
    exact ⟨t, ht, by rw [digest, List.flatten_singleton]⟩

/-- Settles O48: both runs leave `sha256` of the one message, which names no state and no chunking. -/
theorem digestDependsOnTheMessageOnly : Obligations.DigestDependsOnTheMessageOnly := by
  intro chunks chunks' s s' hm h h'
  obtain ⟨t, ht, digest, -⟩ := execAll_init_write_finalize h chunks
  obtain ⟨t', ht', digest', -⟩ := execAll_init_write_finalize h' chunks'
  exact ⟨t, t', ht, ht', by rw [digest, digest', hm]⟩

end Sys2Proof.Machine
end

section
/-!
PROOF. O50: only a `FINALIZE` in phase `ACTIVE` writes `OUT` (spec/10_state.md R18, spec/43_finalize.md R123).
-/

namespace Sys2Proof.Machine

theorem outByte_raise (x : EngineFault) (s : State) (a : Nat) : outByte (raise x s) a = outByte s a := rfl

theorem outByte_effect {i : Instr} {s : State} (h : ¬ (i = .finalize ∧ s.phase = .active)) (a : Nat) :
    outByte (effect i s) a = outByte s a := by
  obtain ⟨x, e, -⟩ | ⟨-, e⟩ | ⟨d, -, -, e⟩ | ⟨hi, hp, -⟩ := effect_cases i s
  · rw [e, outByte_raise]
  · rw [e, outByte_startMessage]
  · rw [e, outByte_appendByte]
  · exact absurd ⟨hi, hp⟩ h

theorem outByte_after {i : Instr} {s : State} (h : ¬ (i = .finalize ∧ s.phase = .active ∧ s.err = false)) (a : Nat) :
    outByte (after s i) a = outByte s a := by
  cases herr : s.err with
  | true => rw [after_halted herr]
  | false =>
    rw [after_running herr]
    exact outByte_effect (fun ⟨hi, hp⟩ => h ⟨hi, hp, herr⟩) a

/-- The digest port shows the bytes of `OUT` and nothing else (R72). -/
theorem digestPort_congr {s t : State} (h : ∀ a, outByte t a = outByte s a) : digestPort t = digestPort s := by
  rw [digestPort_eq, digestPort_eq, outBytes, outBytes, funext h]

/-- Settles O50: every effect but that of a successful `FINALIZE` keeps each byte of `OUT`. -/
theorem digestPersists : Obligations.DigestPersists :=
  fun i s h => ⟨after s i, exec_after i s, outByte_after h, digestPort_congr (outByte_after h)⟩

end Sys2Proof.Machine
end

section
/-!
PROOF. O15, O16: `WBYTE` and `FINALIZE` outside `ACTIVE` (spec/60_exceptions.md R128, R129).
-/

namespace Sys2Proof.Machine

/-- `WBYTE` and `FINALIZE` are the two commands that make check 3 of R130. -/
theorem effect_eq_whenActive {i : Instr} (hi : (∃ d, i = .wbyte d) ∨ i = .finalize) :
    ∃ f, effect i = whenActive f := by
  obtain ⟨d, rfl⟩ | rfl := hi
  · exact ⟨appendByte d, rfl⟩
  · exact ⟨finishMessage, rfl⟩

theorem exec_command_uninit {i : Instr} {s : State} (hi : (∃ d, i = .wbyte d) ∨ i = .finalize) (h : s.err = false)
    (hp : s.phase = .uninit) : exec i s = .next { s with err := true, cause := some .notInitialized } := by
  obtain ⟨f, hf⟩ := effect_eq_whenActive hi
  rw [exec_running h, hf, whenActive_uninit hp]
  rfl

theorem exec_command_consumed {i : Instr} {s : State} (hi : (∃ d, i = .wbyte d) ∨ i = .finalize) (h : s.err = false)
    (hp : s.phase = .consumed) : exec i s = .next { s with err := true, cause := some .consumed } := by
  obtain ⟨f, hf⟩ := effect_eq_whenActive hi
  rw [exec_running h, hf, whenActive_consumed hp]
  rfl

/-- Settles O15: both commands make the phase check, which raises the fault of `UNINIT`. -/
theorem commandBeforeInitFaults : Obligations.CommandBeforeInitFaults :=
  fun d _ h hp => ⟨exec_command_uninit (.inl ⟨d, rfl⟩) h hp, exec_command_uninit (.inr rfl) h hp⟩

/-- Settles O16: both commands make the phase check, which raises the fault of `CONSUMED`. -/
theorem commandAfterFinalizeFaults : Obligations.CommandAfterFinalizeFaults :=
  fun d _ h hp => ⟨exec_command_consumed (.inl ⟨d, rfl⟩) h hp, exec_command_consumed (.inr rfl) h hp⟩

end Sys2Proof.Machine
end

section
/-!
PROOF. O13, O17: the checks on a token and their order (spec/60_exceptions.md R127, R130).
-/

namespace Sys2Proof.Machine

/-- The tokens 0x100..0x1FF and 0x200 are those of `WBYTE` and `FINALIZE` (R62, R63). -/
theorem decode_command {c : Token} (hc : (0x100 ≤ c.toNat ∧ c.toNat ≤ 0x1FF) ∨ c = 0x200#10) :
    (∃ d, decode c = .wbyte d) ∨ decode c = .finalize := by
  obtain ⟨hlow, hhigh⟩ | rfl := hc
  · have hd : (BitVec.ofNat 8 (c.toNat - 0x100)).toNat = c.toNat - 0x100 := Nat.mod_eq_of_lt (by omega)
    exact .inl ⟨_, decode_eq_wbyte (by rw [hd]; omega)⟩
  · exact .inr decode_finalizeToken

/-- Settles O13: a reserved token decodes to a reserved row. -/
theorem reservedTokenRaisesIllegalCommand : Obligations.ReservedTokenRaisesIllegalCommand :=
  fun c _ hc h => exec_reserved ((reservedToken_iff c).1 hc) h

/-- Settles O17: each check has its lemma, and the token 0x2FF of the example is reserved. -/
theorem checksAreInOrder : Obligations.ChecksAreInOrder := by
  refine ⟨fun c s => ⟨fun h => exec_halted h _, fun h hc => reservedTokenRaisesIllegalCommand c s hc h,
    fun h hc => ⟨exec_command_uninit (decode_command hc) h, exec_command_consumed (decode_command hc) h⟩⟩,
    fun s h _ => reservedTokenRaisesIllegalCommand 0x2FF#10 s (by decide) h⟩

end Sys2Proof.Machine
end

section
/-!
PROOF. O18: fault entry writes `ERR` and `CAUSE` only, and the first fault stays (spec/60_exceptions.md R131).
-/

namespace Sys2Proof.Machine

/-- An effect that sets `ERR` is a fault entry: the three others keep `ERR`. -/
theorem effect_eq_raise {i : Instr} {s : State} (h : s.err = false) (ht : (effect i s).err = true) :
    ∃ x, effect i s = raise x s := by
  obtain ⟨x, e, -⟩ | ⟨-, e⟩ | ⟨d, -, -, e⟩ | ⟨-, -, e⟩ := effect_cases i s
  · exact ⟨x, e⟩
  · simp [e, h] at ht
  · simp [e, h] at ht
  · simp [e, h] at ht

theorem execAll_halted {s : State} (h : s.err = true) (is : List Instr) : execAll is s = .next s := by
  rw [execAll_eq, foldl_after_halted h]

/-- Settles O18: the step is a fault entry, `STATUS` shows its cause, and the halted engine ignores what follows. -/
theorem faultEntryIsPrecise : Obligations.FaultEntryIsPrecise := by
  intro i s t h hexec ht
  refine ⟨?_, execAll_halted ht⟩
  rw [exec_running h] at hexec
  cases hexec
  obtain ⟨x, e⟩ := effect_eq_raise h ht
  obtain ⟨-, -, hcause, -⟩ := status_fields (effect i s)
  refine ⟨x, e, ?_⟩
  rw [hcause, e, raise_cause]
  cases x <;> rfl

end Sys2Proof.Machine
end

section
/-!
PROOF. O12, O21: the halted engine, and the hardware reset that leaves it (spec/60_exceptions.md R132, R133).
-/

namespace Sys2Proof.Machine

/-- The step of a halted engine takes the token from the port and does nothing else (R56, R132). -/
theorem step_halted {s : State} {c : Token} {rest : List Token} (h : s.err = true) (hp : s.port = c :: rest) :
    step s = .next { s with port := rest } := by
  rw [step_cons hp, after_halted h]

/-- Settles O12: the ports `digest` and `status` do not show the tokens that wait. -/
theorem haltedEngineIgnoresEveryToken : Obligations.HaltedEngineIgnoresEveryToken := by
  intro s h
  refine ⟨exec_halted h, fun c rest hp => ⟨_, step_halted h hp, rfl, digestPort_congr fun _ => rfl, rfl⟩, ?_⟩
  simp [h]

/-- Settles O21: a halted engine waits or drops one token; the state after a reset is one of `State.afterReset`, which
takes from the old state the number of its draw and its port. -/
theorem onlyResetLeavesTheHaltedState : Obligations.OnlyResetLeavesTheHaltedState := by
  refine ⟨fun s t h hstep => ?_, fun s => ⟨afterReset_err _ s.port, afterReset_cause _ s.port⟩,
    fun s s' hdraws hport => by rw [assertReset, hdraws, hport, assertReset]⟩
  obtain ⟨-, rfl⟩ | ⟨c, rest, -, rfl⟩ := step_cases hstep
  · exact ⟨h, rfl⟩
  · rw [after_halted h]
    exact ⟨h, rfl⟩

end Sys2Proof.Machine
end

section
/-!
PROOF. O22: valid use raises no fault, and only valid use (spec/60_exceptions.md R125, spec/10_state.md R26).
-/

namespace Sys2Proof.Machine

theorem validUse_init (p : Phase) (is : List Instr) : validUse p (.init :: is) = validUse .active is := by
  cases p <;> rfl

theorem validUse_reserved {i : Instr} (hi : i.isReserved = true) (p : Phase) (is : List Instr) :
    validUse p (i :: is) = false := by
  cases i with
  | init => cases hi
  | wbyte d => cases hi
  | finalize => cases hi
  | _ => cases p <;> rfl

theorem validUse_command {i : Instr} (hi : (∃ d, i = .wbyte d) ∨ i = .finalize) {p : Phase} (hp : p ≠ .active)
    (is : List Instr) : validUse p (i :: is) = false := by
  cases p with
  | active => exact absurd rfl hp
  | _ => obtain ⟨d, rfl⟩ | rfl := hi <;> rfl

/-- Misuse is a reserved token in any phase, or a command other than `INIT` outside `ACTIVE`; what follows it does not
mend it. -/
theorem validUse_misuse {p : Phase} {i : Instr} (hinit : i ≠ .init) (misuse : i.isReserved = true ∨ p ≠ .active)
    (is : List Instr) : validUse p (i :: is) = false := by
  by_cases hr : i.isReserved = true
  · exact validUse_reserved hr p is
  · exact validUse_command ((command_of_not_reserved hr).resolve_left hinit) (misuse.resolve_left hr) is

/-- `validUse` follows the phase, so that it fails at the first instruction whose effect is a fault. -/
theorem foldl_after_err_iff_validUse (is : List Instr) {s : State} (h : s.err = false) :
    (is.foldl after s).err = false ↔ validUse s.phase is = true := by
  induction is generalizing s with
  | nil => exact iff_of_true h rfl
  | cons i is ih =>
    rw [List.foldl_cons, after_running h]
    obtain ⟨x, e, hinit, misuse⟩ | ⟨rfl, e⟩ | ⟨d, rfl, hp, e⟩ | ⟨rfl, hp, e⟩ := effect_cases i s
    · simp [e, foldl_after_halted (raise_err x s), validUse_misuse hinit misuse]
    · rw [e, ih ((startMessage_err s).trans h), startMessage_phase, validUse_init]
    · rw [e, ih ((appendByte_err d s).trans h), appendByte_phase, hp, validUse]
    · rw [e, ih ((finishMessage_err s).trans h), finishMessage_phase, hp, validUse]

/-- Settles O22: every sequence completes, in the fold of its effects. -/
theorem validUseNeverFaults : Obligations.ValidUseNeverFaults :=
  fun is s h => ⟨is.foldl after s, execAll_eq is s, foldl_after_err_iff_validUse is h⟩

end Sys2Proof.Machine
end

section
/-!
PROOF. O4: the tokens written out in the test vectors (spec/95_test_vectors.md section 3).
-/

namespace Sys2Proof

theorem decode_eq_of_encode_eq {c : Token} {i : Instr} (h : i.wellFormed = true) (e : encode i = c) :
    decode c = i := by
  rw [← e, decode_encode h]

/-- Settles O4: each token written out is the encoding of the instruction named there, which is well formed. -/
theorem writtenOutTokensDecode : Obligations.WrittenOutTokensDecode := by
  unfold Obligations.WrittenOutTokensDecode
  and_intros <;> exact decode_eq_of_encode_eq rfl rfl

end Sys2Proof
end
